-- ==== Sys2Proof/Word.lean ====
section
/-! DEFINITION. The word types of the Bit Channel Codec (00_scope.md R8, 30_encoding.md R70). -/

namespace Sys2Proof

/-- An 8-bit cell, payload byte, mask, signal code or `aux` field (R8). -/
abbrev Byte := BitVec 8

/-- A 64-bit `data` or `rdata` field (R70, R71). -/
abbrev Data := BitVec 64

/-- An 80-bit command or response word (R70, R71). -/
abbrev CommandWord := BitVec 80

end Sys2Proof
end

