-- ==== Sys2Proof/Config.lean ====
section
/-! DEFINITION. What an implementation fixes (00_scope.md R8, R9) and the free values.

The widths that R9 leaves open are the arguments of the model, a value of `Params`; the machine carries its own in
State (log 1). The two opaque constants have no body: nothing can be proved of the values they give. -/

namespace Sys2Proof

/-- The parameters of R9, with its constraints. -/
structure Params where
  /-- `ROW_BITS`: width of `HEIGHT` and `ROW`. -/
  rowBits : Nat
  /-- `COL_BITS`: width of `WIDTH` and `COL`. -/
  colBits : Nat
  /-- `CH_BITS`: width of `CHANNELS` and `CH`. -/
  chBits : Nat
  row_pos : 1 ≤ rowBits
  col_pos : 1 ≤ colBits
  ch_pos : 1 ≤ chBits
  sum_le : rowBits + colBits + chBits ≤ 64
deriving DecidableEq, Repr

/-- `CAP_BITS = ROW_BITS + COL_BITS + CH_BITS`: width of the capacity product (R9). -/
def Params.capBits (p : Params) : Nat := p.rowBits + p.colBits + p.chBits

/-- The defaults of R9, for which the command encoding is sized. -/
def Params.defaults : Params where
  rowBits := 24
  colBits := 24
  chBits := 16
  row_pos := by decide
  col_pos := by decide
  ch_pos := by decide
  sum_le := by decide

namespace Config

/-- `LEN_BITS`: width of the length prefix (R8). -/
abbrev lenBits : Nat := 64

/-- `CONV_MAX = LEN_BITS`: the largest `width` the converters accept (R9). -/
abbrev convMax : Nat := lenBits

/-- `BYTE_BITS`: bits written per payload byte (R8). -/
abbrev byteBits : Nat := 8

/-- `PLANES`: bit positions usable per cell (R8). -/
abbrev planes : Nat := 8

/-- FREE VALUE (log 3): the content of the GRID cell with this slot index while nothing has written it
(70_reset_and_hazards.md R193, 93_implementation_defined.md U5: any value). -/
opaque unloadedCell : Nat → Byte

/-- FREE VALUE (log 4): `PayIn[j]` for an index the host supplied no byte for, against its duty to supply exactly
`L` (20_memory.md R56). -/
opaque unsuppliedPayByte : Nat → Byte

end Config

end Sys2Proof
end

