-- ==== Sys2Proof/Syntax.lean ====
section
/-! DEFINITION. The commands as terms: one constructor per row of spec/opcode_table.json (30_encoding.md R72, R73). -/

namespace Sys2Proof

/-- The registers and derived views RDREG can name (10_state.md R35). -/
inductive RegName where
  | status | height | width | channels | row | col | ch | k | setMask | clrMask | capacity
deriving DecidableEq, Repr

/-- A command with its operands, each the unsigned value of its field (R73). -/
inductive Instr where
  /-- INIT height, width, channels (R150): as wide as the parameters of the machine say (R74; WellFormed). -/
  | init (height width channels : Nat)
  /-- ADV (R91). -/
  | adv
  /-- WBIT b (R103). -/
  | wbit (b : Bool)
  /-- RBIT (R107). -/
  | rbit
  /-- MASK k (R100). -/
  | mask (k : BitVec 3)
  /-- TOBITS value, width (R115). -/
  | tobits (width : Byte) (value : Data)
  /-- FROMBITS digits, n: the digit string packed by R77 (R120). -/
  | frombits (n : Byte) (digits : Data)
  /-- ENCODE: the payload length `L`; the payload itself is in PAYIN (R131, R78). -/
  | encode (len : Data)
  /-- DECODE (R136). -/
  | decode
  /-- RDREG idx (R155). -/
  | rdreg (reg : RegName)
deriving DecidableEq, Repr

end Sys2Proof
end

