-- ==== Sys2Proof/WellFormed.lean ====
section
/-! DEFINITION. Which terms are legal commands of a codec with these parameters: the widths of INIT's operands
(30_encoding.md R74), and the value conditions R80 (c) and (d) that the operand types do not already impose. -/

namespace Sys2Proof

/-- R80 (c): `width` and `n` are legal from 1 to `CONV_MAX`. -/
def legalWidth (w : Byte) : Bool := decide (1 ≤ w.toNat ∧ w.toNat ≤ Config.convMax)

/-- R80 (d): no 1 in `data[63:n]`. -/
def noStrayDigit (n : Byte) (digits : Data) : Bool := decide (digits.toNat < 2 ^ n.toNat)

/-- A legal width is at least 1. -/
theorem legalWidth_pos {w : Byte} (h : legalWidth w = true) : 1 ≤ w.toNat := (of_decide_eq_true h).1

/-- INIT's operands fit the dimension registers (R74, 00_scope.md R9). -/
def dimensionsFit (p : Params) (h w c : Nat) : Bool :=
  decide (h < 2 ^ p.rowBits ∧ w < 2 ^ p.colBits ∧ c < 2 ^ p.chBits)

/-- The term stands for a legal command word (R74, R80). -/
def WellFormed (p : Params) : Instr → Bool
  | .init h w c => dimensionsFit p h w c
  | .adv => true
  | .wbit _ => true
  | .rbit => true
  | .mask _ => true
  | .tobits width _ => legalWidth width
  | .frombits n digits => legalWidth n && noStrayDigit n digits
  | .encode _ => true
  | .decode => true
  | .rdreg _ => true

end Sys2Proof
end

