-- ==== Sys2Proof/Decode.lean ====
section
/-! DEFINITION. The command decoder (30_encoding.md R70 to R74, R80, R81), its encoder, and the byte serialisation.
The decoder is written from the field table R73; the mask and match table R81 stands beside it as `opcodeTable`. -/

namespace Sys2Proof

/-- Why a word is no command: the cases of R80, and for words carried as bytes a shortage of bytes (the model's own:
log 15). -/
inductive DecodeError where
  /-- R80 (a): `op` is 0x00 or in 0x0B to 0xFF. -/
  | reservedOp
  /-- R80 (b): a must-be-zero field is not zero. -/
  | nonzeroField
  /-- R80 (c): TOBITS or FROMBITS with `aux` 0 or above 64. -/
  | widthRange
  /-- R80 (d): FROMBITS with a 1 in `data[63:n]`. -/
  | strayDigit
  /-- R80 (e): RDREG with `aux` above 0x0A. -/
  | registerIndex
  /-- Fewer than the ten bytes of a command word: DESIGN CHOICE, safe, log 15. -/
  | shortInput
deriving DecidableEq, Repr

/-- What decoding answers. -/
inductive Decoded where
  | command (i : Instr)
  | illegal (e : DecodeError)
deriving DecidableEq, Repr

/-- `op = w[79:72]` (R70). -/
def opField (w : CommandWord) : Byte := w.extractLsb' 72 8

/-- `aux = w[71:64]` (R70). -/
def auxField (w : CommandWord) : Byte := w.extractLsb' 64 8

/-- `data = w[63:0]` (R70). -/
def dataField (w : CommandWord) : Data := w.extractLsb' 0 64

/-- The word with these three fields (R70). -/
def assemble (op aux : Byte) (data : Data) : CommandWord := op ++ aux ++ data

/-- INIT's `height`, the most significant dimension field (R73, R74). -/
def heightField (p : Params) (data : Data) : Nat := (data.extractLsb' (p.chBits + p.colBits) p.rowBits).toNat

/-- INIT's `width` (R73, R74). -/
def widthField (p : Params) (data : Data) : Nat := (data.extractLsb' p.chBits p.colBits).toNat

/-- INIT's `channels` (R73, R74). -/
def channelsField (p : Params) (data : Data) : Nat := (data.extractLsb' 0 p.chBits).toNat

/-- The bits of INIT's `data` above its three fields are 0. With the default parameters there are none (R74: they fill
`data` exactly); with narrower ones the fields are right-aligned and the rest must be 0 (DESIGN CHOICE, safe, log 14). -/
def noStrayDimensionBit (p : Params) (data : Data) : Bool := decide (data.toNat < 2 ^ p.capBits)

/-- INIT's `data` from its three dimensions, `height` most significant, then `width`, then `channels` (R73, R74). -/
def dimensionData (p : Params) (h w c : Nat) : Data :=
  BitVec.ofNat 64 ((h * 2 ^ p.colBits + w) * 2 ^ p.chBits + c)

/-- The register with an RDREG index (10_state.md R35). -/
def regOfIndex (idx : Byte) : Option RegName :=
  if idx = 0x00#8 then some .status
  else if idx = 0x01#8 then some .height
  else if idx = 0x02#8 then some .width
  else if idx = 0x03#8 then some .channels
  else if idx = 0x04#8 then some .row
  else if idx = 0x05#8 then some .col
  else if idx = 0x06#8 then some .ch
  else if idx = 0x07#8 then some .k
  else if idx = 0x08#8 then some .setMask
  else if idx = 0x09#8 then some .clrMask
  else if idx = 0x0A#8 then some .capacity
  else none

/-- The RDREG index of a register (10_state.md R35). -/
def indexOfReg : RegName → Byte
  | .status => 0x00#8
  | .height => 0x01#8
  | .width => 0x02#8
  | .channels => 0x03#8
  | .row => 0x04#8
  | .col => 0x05#8
  | .ch => 0x06#8
  | .k => 0x07#8
  | .setMask => 0x08#8
  | .clrMask => 0x09#8
  | .capacity => 0x0A#8

/-- A command whose `aux` and `data` must both be 0 (R73: ADV, RBIT, DECODE). -/
def decodePlain (i : Instr) (aux : Byte) (data : Data) : Decoded :=
  if aux = 0#8 ∧ data = 0#64 then .command i else .illegal .nonzeroField

/-- INIT: `aux` must be 0 (R73), and so must what the dimensions leave of `data` (R74, log 14). -/
def decodeInit (p : Params) (aux : Byte) (data : Data) : Decoded :=
  if aux = 0#8 ∧ noStrayDimensionBit p data = true then
    .command (.init (heightField p data) (widthField p data) (channelsField p data))
  else .illegal .nonzeroField

/-- WBIT: `aux[0] = b`, `aux[7:1]` and `data` must be 0 (R73). -/
def decodeWbit (aux : Byte) (data : Data) : Decoded :=
  if aux.extractLsb' 1 7 = 0#7 ∧ data = 0#64 then .command (.wbit (aux.getLsbD 0)) else .illegal .nonzeroField

/-- MASK: `aux[2:0] = k`, `aux[7:3]` and `data` must be 0 (R73). -/
def decodeMask (aux : Byte) (data : Data) : Decoded :=
  if aux.extractLsb' 3 5 = 0#5 ∧ data = 0#64 then .command (.mask (aux.extractLsb' 0 3)) else .illegal .nonzeroField

/-- TOBITS: `aux = width`, legal from 1 to 64 (R73, R80 (c)). -/
def decodeTobits (aux : Byte) (data : Data) : Decoded :=
  if legalWidth aux then .command (.tobits aux data) else .illegal .widthRange

/-- FROMBITS: `aux = n`, legal from 1 to 64, `data[63:n]` must be 0 (R73, R80 (c), (d)). -/
def decodeFrombits (aux : Byte) (data : Data) : Decoded :=
  if legalWidth aux then
    if noStrayDigit aux data then .command (.frombits aux data) else .illegal .strayDigit
  else .illegal .widthRange

/-- ENCODE: `aux` must be 0 (R73). -/
def decodeEncode (aux : Byte) (data : Data) : Decoded :=
  if aux = 0#8 then .command (.encode data) else .illegal .nonzeroField

/-- RDREG: `aux` is an index of the register map, `data` must be 0 (R73, R80 (e)). -/
def decodeRdreg (aux : Byte) (data : Data) : Decoded :=
  if data = 0#64 then
    match regOfIndex aux with
    | some r => .command (.rdreg r)
    | none => .illegal .registerIndex
  else .illegal .nonzeroField

/-- Decoding by fields: the opcode map R72; every other `op` is reserved (R80 (a)). -/
def decodeFields (p : Params) (op aux : Byte) (data : Data) : Decoded :=
  if op = 0x01#8 then decodeInit p aux data
  else if op = 0x02#8 then decodePlain .adv aux data
  else if op = 0x03#8 then decodeWbit aux data
  else if op = 0x04#8 then decodePlain .rbit aux data
  else if op = 0x05#8 then decodeMask aux data
  else if op = 0x06#8 then decodeTobits aux data
  else if op = 0x07#8 then decodeFrombits aux data
  else if op = 0x08#8 then decodeEncode aux data
  else if op = 0x09#8 then decodePlain .decode aux data
  else if op = 0x0A#8 then decodeRdreg aux data
  else .illegal .reservedOp

/-- The decoder of command words (R81) of a codec with these parameters. -/
def decodeCommand (p : Params) (w : CommandWord) : Decoded := decodeFields p (opField w) (auxField w) (dataField w)

/-- The encoder (R72, R73). -/
def encodeCommand (p : Params) : Instr → CommandWord
  | .init h w c => assemble 0x01#8 0#8 (dimensionData p h w c)
  | .adv => assemble 0x02#8 0#8 0#64
  | .wbit b => assemble 0x03#8 ((BitVec.ofBool b).setWidth 8) 0#64
  | .rbit => assemble 0x04#8 0#8 0#64
  | .mask k => assemble 0x05#8 (k.setWidth 8) 0#64
  | .tobits width value => assemble 0x06#8 width value
  | .frombits n digits => assemble 0x07#8 n digits
  | .encode len => assemble 0x08#8 0#8 len
  | .decode => assemble 0x09#8 0#8 0#64
  | .rdreg r => assemble 0x0A#8 (indexOfReg r) 0#64

/-- The mnemonic of a command (R72). -/
def Instr.mnemonic : Instr → String
  | .init _ _ _ => "INIT"
  | .adv => "ADV"
  | .wbit _ => "WBIT"
  | .rbit => "RBIT"
  | .mask _ => "MASK"
  | .tobits _ _ => "TOBITS"
  | .frombits _ _ => "FROMBITS"
  | .encode _ => "ENCODE"
  | .decode => "DECODE"
  | .rdreg _ => "RDREG"

/-- One row of the table of R81. -/
structure OpcodeRow where
  mnemonic : String
  pattern : CommandWord
  mask : CommandWord
deriving DecidableEq, Repr

/-- A word selects a row when `(w & mask) == match` (R81). -/
def OpcodeRow.selects (r : OpcodeRow) (w : CommandWord) : Bool := decide (w &&& r.mask = r.pattern)

/-- The table of R81, row for row, sized for the default parameters (R9). -/
def opcodeTable : List OpcodeRow := [
  ⟨"INIT", 0x01000000000000000000#80, 0xFFFF0000000000000000#80⟩,
  ⟨"ADV", 0x02000000000000000000#80, 0xFFFFFFFFFFFFFFFFFFFF#80⟩,
  ⟨"WBIT", 0x03000000000000000000#80, 0xFFFEFFFFFFFFFFFFFFFF#80⟩,
  ⟨"RBIT", 0x04000000000000000000#80, 0xFFFFFFFFFFFFFFFFFFFF#80⟩,
  ⟨"MASK", 0x05000000000000000000#80, 0xFFF8FFFFFFFFFFFFFFFF#80⟩,
  ⟨"TOBITS", 0x06000000000000000000#80, 0xFF000000000000000000#80⟩,
  ⟨"FROMBITS", 0x07000000000000000000#80, 0xFF000000000000000000#80⟩,
  ⟨"ENCODE", 0x08000000000000000000#80, 0xFFFF0000000000000000#80⟩,
  ⟨"DECODE", 0x09000000000000000000#80, 0xFFFFFFFFFFFFFFFFFFFF#80⟩,
  ⟨"RDREG", 0x0A000000000000000000#80, 0xFF00FFFFFFFFFFFFFFFF#80⟩]

/-- A command word as its ten bytes, most significant first (R70). -/
def wordBytes (w : CommandWord) : List Byte := (List.range 10).map fun i => w.extractLsb' (8 * (9 - i)) 8

/-- The word that ten bytes carry, most significant first (R70), and the bytes after it; none where there are fewer
than ten (log 15). -/
def wordOfBytes : List Byte → Option (CommandWord × List Byte)
  | b0 :: b1 :: b2 :: b3 :: b4 :: b5 :: b6 :: b7 :: b8 :: b9 :: rest =>
    some (b0 ++ b1 ++ b2 ++ b3 ++ b4 ++ b5 ++ b6 ++ b7 ++ b8 ++ b9, rest)
  | _ => none

/-- The decoder on bytes (R70, R81), total on any list. Of fewer than ten bytes the spec says nothing (R80 speaks of
80-bit words): the answer is then `shortInput`, with no byte taken (DESIGN CHOICE, safe, log 15). -/
def decodeBytes (p : Params) (bytes : List Byte) : Decoded × List Byte :=
  match wordOfBytes bytes with
  | some (w, rest) => (decodeCommand p w, rest)
  | none => (.illegal .shortInput, bytes)

/-- The command word an opcode-table word of `nbits` bits stands for: the table numbers the bits of the one 80-bit
word, so every bit above `nbits` is 0. -/
def tableWord (nbits w : Nat) : CommandWord := BitVec.ofNat 80 (w % 2 ^ nbits)

/-- The instruction the decoder, with the parameters the table is sized for, reads from an opcode-table word carried as
bytes as R70 lays them out. -/
def decodeTableWord (nbits w : Nat) : Option Instr :=
  match (decodeBytes .defaults (wordBytes (tableWord nbits w))).1 with
  | .command i => some i
  | .illegal _ => none

end Sys2Proof
end

