-- ==== Sys2Proof/Machine/State.lean ====
section
/-! DEFINITION. The state of the machine as plain data (10_state.md, 20_memory.md), the signals (60_exceptions.md R161),
the reasons a step can stop, and the state after reset (10_state.md R38). -/

namespace Sys2Proof.Machine

/-- The GRID: cells written so far, keyed by slot index (20_memory.md R51), strictly rising by key. A key that is not
listed is a cell nothing has written (R193). -/
abbrev Memory := List Host.Cell

/-- The error outcomes of a command (60_exceptions.md R160, R161). -/
inductive Signal where
  | invalidCarrier | carrierTooSmall | capacityExhausted | valueTooLarge | truncatedOrCorruptData | illegalCommand
deriving DecidableEq, Repr

/-- What a command answers: the response word's three fields (30_encoding.md R71). A payload is not part of it: DECODE
delivers one in PAYOUT (20_memory.md R57). -/
structure Response where
  sig : Byte
  flags : Byte
  rdata : Data
deriving DecidableEq, Repr

/-- One move of the host (00_scope.md R15). -/
inductive HostMove where
  /-- Present a command word with the payload in PAYIN (30_encoding.md R70, 20_memory.md R56). -/
  | command (word : CommandWord) (payload : List Byte)
  /-- Write one GRID cell, between commands (20_memory.md R61). -/
  | store (slot : Nat) (value : Byte)
  /-- Assert reset, between commands (70_reset_and_hazards.md R190, R191). -/
  | reset
deriving DecidableEq, Repr

/-- The state of the BCC and of what it exchanges with the host. The dimension and cursor registers hold sizes and
indexes, on which all arithmetic is exact (00_scope.md R10); that each fits the width its machine's parameters give it is
part of the invariant (`RegistersFit`, log 1). -/
structure State where
  /-- The parameters this machine is built with (00_scope.md R9, log 1); no step changes them. -/
  params : Params
  /-- `HEIGHT`, `ROW_BITS` bits (R21). -/
  height : Nat
  /-- `WIDTH`, `COL_BITS` bits (R21). -/
  width : Nat
  /-- `CHANNELS`, `CH_BITS` bits (R21). -/
  channels : Nat
  /-- `ROW`, `ROW_BITS` bits (R22). -/
  row : Nat
  /-- `COL`, `COL_BITS` bits (R22). -/
  col : Nat
  /-- `CH`, `CH_BITS` bits (R22). -/
  ch : Nat
  /-- `K` (R23). -/
  k : BitVec 3
  /-- `VALID` (R27). -/
  valid : Bool
  /-- `EXH` (R28). -/
  exh : Bool
  /-- `ERRS` (R29). -/
  errs : Bool
  /-- `LASTSIG` (R30). -/
  lastSig : Byte
  /-- GRID (R50, R51). -/
  grid : Memory
  /-- PAYIN (R50, R56): the payload supplied for the command to be executed, gone when it has ended. -/
  payIn : List Byte
  /-- PAYOUT (R50, R57): what DECODE last wrote there; no other command, no reset and no store touches it (10_state.md R39,
  70_reset_and_hazards.md R190). -/
  payOut : List Byte
  /-- The response to the most recent command (R71); none before the first command (log 8). -/
  response : Option Response
  /-- The model's own field: the host's coming moves, oldest first (log 5). -/
  host : List HostMove
deriving DecidableEq, Repr

/-- Why the machine stops with a fault. -/
inductive Fault where
  /-- Raised by `gridRead` and `gridWrite` for a triple outside the valid addresses of 20_memory.md R51. R54: no
  command makes such an access; only a state that breaks the cursor invariant R24 reaches it. Safe (log 9). -/
  | badGridAddress
deriving DecidableEq, Repr

/-- Why a step is refused. -/
inductive Refusal where
  /-- An instruction without a meaning; raised by no arm of this model. Safe. -/
  | notModelled (mnemonic : String)
deriving DecidableEq, Repr

/-- The machine with these parameters right after reset (10_state.md R38): registers as the table says; no cell written,
nothing supplied, nothing delivered, no response given and no host move pending (logs 3, 5, 8). -/
def State.resetWith (p : Params) : State where
  params := p
  height := 0
  width := 0
  channels := 0
  row := 0
  col := 0
  ch := 0
  k := 0
  valid := false
  exh := false
  errs := false
  lastSig := 0x00#8
  grid := []
  payIn := []
  payOut := []
  response := none
  host := []

/-- The machine with the default parameters of 00_scope.md R9 right after reset. -/
def State.reset : State := State.resetWith .defaults

end Sys2Proof.Machine
end

