-- ==== Sys2Proof/Machine/Memory.lean ====
section
/-! DEFINITION. The GRID as a list of (slot index, byte) pairs in one canonical form: keys strictly rising. An unlisted
key has no byte of its own (nothing has written the cell); reading it gives the free value of log 3. -/

namespace Sys2Proof.Machine.Memory

/-- The byte stored under a key, none where nothing has written it. -/
def lookup : Memory → Nat → Option Byte
  | [], _ => none
  | (b, v) :: rest, a => if a = b then some v else lookup rest a

/-- The 8-bit value of the cell with this slot index (20_memory.md R52; never-loaded cells: R193, log 3). -/
def read (m : Memory) (a : Nat) : Byte := (lookup m a).getD (Config.unloadedCell a)

/-- Replace the whole value of one cell and change no other (20_memory.md R53). -/
def write : Memory → Nat → Byte → Memory
  | [], a, v => [(a, v)]
  | (b, u) :: rest, a, v =>
    if a < b then (a, v) :: (b, u) :: rest
    else if a = b then (a, v) :: rest
    else (b, u) :: write rest a v

/-- Every key of the list is above `a`. -/
def above (a : Nat) : Memory → Bool
  | [] => true
  | (b, _) :: rest => decide (a < b) && above a rest

/-- The canonical form: keys strictly rising. -/
def wf : Memory → Bool
  | [] => true
  | (a, _) :: rest => above a rest && wf rest

end Sys2Proof.Machine.Memory
end

