-- ==== Sys2Proof/Machine/Flags.lean ====
section
/-! DEFINITION. Signal codes (60_exceptions.md R161), the STATUS register (10_state.md R31), the response word
(30_encoding.md R71). -/

namespace Sys2Proof.Machine

/-- The code of `OK` (R161). -/
def okCode : Byte := 0x00#8

/-- The code of a signal (R161). -/
def Signal.code : Signal → Byte
  | .invalidCarrier => 0x01#8
  | .carrierTooSmall => 0x02#8
  | .capacityExhausted => 0x03#8
  | .valueTooLarge => 0x04#8
  | .truncatedOrCorruptData => 0x05#8
  | .illegalCommand => 0x06#8

/-- `STATUS[7:0]`: bit 0 `VALID`, bit 1 `EXH`, bit 2 `ERRS`, bits 7:3 zero (R31, R71). -/
def flagsByte (s : State) : Byte :=
  0#5 ++ BitVec.ofBool s.errs ++ BitVec.ofBool s.exh ++ BitVec.ofBool s.valid

/-- `STATUS` (R31): `LASTSIG` in bits 15:8 over the flags byte. -/
def statusReg (s : State) : Data := (s.lastSig ++ flagsByte s).setWidth 64

/-- The response word `sig flags rdata` (R71). -/
def Response.word (r : Response) : CommandWord := r.sig ++ r.flags ++ r.rdata

end Sys2Proof.Machine
end

