-- ==== Sys2Proof/Machine/Operands.lean ====
section
/-! DEFINITION. The pure functions on operands: the mask pair and its table (10_state.md R25, R26), the single-bit
update and test (41_mask_bit_io.md R102), digit strings (42_converters.md R115, R120) and their packing
(30_encoding.md R77), the capacity product and the register map (10_state.md R32, R35). -/

namespace Sys2Proof.Machine

/-- `set_mask(k) = 1 << k` (R25). -/
def setMask (k : BitVec 3) : Byte := 1#8 <<< k.toNat

/-- `clr_mask(k) = 0xFF ^ set_mask(k)` (R25). -/
def clrMask (k : BitVec 3) : Byte := 0xFF#8 ^^^ setMask k

/-- `MASKLUT` (R26): the constant table, indexed by the 4-bit value with `sel` above `k`. -/
def maskLut : List Byte :=
  [0x01#8, 0x02#8, 0x04#8, 0x08#8, 0x10#8, 0x20#8, 0x40#8, 0x80#8,
   0xFE#8, 0xFD#8, 0xFB#8, 0xF7#8, 0xEF#8, 0xDF#8, 0xBF#8, 0x7F#8]

/-- The entry of `MASKLUT` that `sel` and `k` select (R26). -/
def maskLutAt (sel : BitVec 1) (k : BitVec 3) : Byte := maskLut.getD (sel ++ k).toNat 0#8

/-- `put(v, k, b)` (R102). -/
def putBit (v : Byte) (k : BitVec 3) (b : Bool) : Byte := if b then v ||| setMask k else v &&& clrMask k

/-- `get(v, k)` (R102). -/
def getBit (v : Byte) (k : BitVec 3) : Bool := v &&& setMask k != 0#8

/-- The `width` digits of a value, most significant first (R12, R115). -/
def digitsOf (value width : Nat) : List Bool := (List.range width).map fun i => value.testBit (width - 1 - i)

/-- What `to_bits` answers: the digits or a signal. -/
inductive Digits where
  | digits (d : List Bool)
  | raised (sig : Signal)
deriving DecidableEq, Repr

/-- `to_bits(value, width)` (R115). Its domain is `width ≥ 1`: at `width = 0` there is no `to_bits` (R117, U3). -/
def toBits (value width : Nat) (_positive : 1 ≤ width) : Digits :=
  if 2 ^ width ≤ value then .raised .valueTooLarge else .digits (digitsOf value width)

/-- One round of the parse of R120: `value * 2 + d[i]`. -/
def parseDigit (value : Nat) (digit : Bool) : Nat := value * 2 + digit.toNat

/-- The number that binary digits spell, the first most significant (00_scope.md R12). -/
def digitsValue (d : List Bool) : Nat := d.foldl parseDigit 0

/-- `from_bits(d)` (R120). Its domain is the strings of at least one digit: of the empty string there is no `from_bits`
(R122, U3). -/
def fromBits (d : List Bool) (_nonempty : 1 ≤ d.length) : Nat := digitsValue d

/-- A digit string of exactly `n` digits. -/
abbrev DigitString (n : Nat) := { d : List Bool // d.length = n }

/-- The number that exactly `n ≥ 1` digits spell, by `from_bits` (R120). -/
def numberOf {n : Nat} (positive : 1 ≤ n) (d : DigitString n) : Nat :=
  fromBits d.val (Nat.le_trans positive (Nat.le_of_eq d.property.symm))

/-- A digit string in a 64-bit field, right-aligned, first digit highest (R77): each digit is shifted in from below. -/
def pack (d : List Bool) : Data := d.foldl (fun field b => field <<< 1 ||| (BitVec.ofBool b).setWidth 64) 0#64

/-- The `n` digits packed in a field: `d[i] = field[n-1-i]` (R77). -/
def unpack (field : Data) (n : Nat) : List Bool := (List.range n).map fun i => field.getLsbD (n - 1 - i)

theorem unpack_length (field : Data) (n : Nat) : (unpack field n).length = n := by simp [unpack]

/-- `HEIGHT * WIDTH * CHANNELS` over the integers (00_scope.md R10, R17). -/
def capacityOf (h w c : Nat) : Nat := h * w * c

/-- The capacity `C` of the bound carrier (R17). -/
def State.capacity (s : State) : Nat := capacityOf s.height s.width s.channels

/-- The `CAPACITY` view: `C`, without wrap-around, 0 with `VALID = 0` (R32). -/
def capacityReg (s : State) : Nat := if s.valid then s.capacity else 0

/-- The register map of RDREG, each value zero-extended to 64 bits (R35): no register is wider than that (R9). -/
def readReg (s : State) : RegName → Data
  | .status => statusReg s
  | .height => BitVec.ofNat 64 s.height
  | .width => BitVec.ofNat 64 s.width
  | .channels => BitVec.ofNat 64 s.channels
  | .row => BitVec.ofNat 64 s.row
  | .col => BitVec.ofNat 64 s.col
  | .ch => BitVec.ofNat 64 s.ch
  | .k => s.k.setWidth 64
  | .setMask => (setMask s.k).setWidth 64
  | .clrMask => (clrMask s.k).setWidth 64
  | .capacity => BitVec.ofNat 64 (capacityReg s)

/-- `PayIn[j]` (20_memory.md R56); a byte the host did not supply is a free value (log 4). -/
def payByte (payIn : List Byte) (j : Nat) : Byte := payIn.getD j (Config.unsuppliedPayByte j)

/-- `PayIn[0..L-1]` (R56). -/
def payload (payIn : List Byte) (len : Nat) : List Byte := (List.range len).map (payByte payIn)

end Sys2Proof.Machine
end

