-- ==== Sys2Proof/Machine/Ops.lean ====
section
/-! DEFINITION. The named operations the commands are built from: GRID access (20_memory.md R51 to R53), the slot
advance (40_cursor_walker.md R90), rewind (43_frame_codec.md R130), the bit writer and reader (41_mask_bit_io.md R103,
R107), and how a command ends: with a result (30_encoding.md R71, R85) or with a signal (60_exceptions.md R165). -/

namespace Sys2Proof.Machine

/-- What a piece of a command's pseudocode does: go on with a value, `raise` a signal (the writes made so far stay,
R165 (b)), or stop the model at an address that does not exist. -/
inductive Flow (α : Type) where
  | go (a : α) (s : State)
  | raised (sig : Signal) (s : State)
  | fault (r : Fault)
deriving Repr

/-- Statement after statement: what follows a `raise` does not run (R165 (a)). -/
def Flow.andThen {α β : Type} (x : Flow α) (f : α → State → Flow β) : Flow β :=
  match x with
  | .go a s => f a s
  | .raised sig s => .raised sig s
  | .fault r => .fault r

/-- `PayOut[j] <- p[j]` for every `j` below the length of `p`: PAYOUT holds exactly this payload (20_memory.md R57). -/
def writePayOut (p : List Byte) (s : State) : State := { s with payOut := p }

/-- DECODE's conversion of `CapacityExhausted` (R138, R167). Whatever it had written to PAYOUT is void (R57): PAYOUT is
empty (log 8). -/
def Flow.surfaceTruncation {α : Type} (x : Flow α) : Flow α :=
  match x with
  | .raised .capacityExhausted s => .raised .truncatedOrCorruptData (writePayOut [] s)
  | .raised sig s => .raised sig s
  | .go a s => .go a s
  | .fault r => .fault r

/-- The slot index `(r * WIDTH + c) * CHANNELS + h` of a valid triple, none for any other (R51). -/
def gridAddress (s : State) (r c h : Nat) : Option Nat :=
  if r < s.height ∧ c < s.width ∧ h < s.channels then
    some ((r * s.width + c) * s.channels + h)
  else none

/-- `MemRead(GRID:(r,c,h), 1)` (R52). -/
def gridRead (r c h : Nat) (s : State) : Flow Byte :=
  match gridAddress s r c h with
  | some a => .go (Memory.read s.grid a) s
  | none => .fault .badGridAddress

/-- `MemWrite(GRID:(r,c,h), 1, v)` (R53). -/
def gridWrite (r c h : Nat) (v : Byte) (s : State) : Flow Unit :=
  match gridAddress s r c h with
  | some a => .go () { s with grid := Memory.write s.grid a v }
  | none => .fault .badGridAddress

/-- `advance()` (R90). -/
def advance (s : State) : Flow Unit :=
  if s.exh then .raised .capacityExhausted s
  else if s.ch + 1 < s.channels then .go () { s with ch := s.ch + 1 }
  else if s.col + 1 < s.width then .go () { s with ch := 0, col := s.col + 1 }
  else if s.row + 1 < s.height then .go () { s with ch := 0, col := 0, row := s.row + 1 }
  else if s.k = 7#3 then .raised .capacityExhausted { s with ch := 0, col := 0, row := 0, exh := true }
  else .go () { s with ch := 0, col := 0, row := 0, k := s.k + 1 }

/-- `rewind()` (R130). -/
def rewind (s : State) : State := { s with row := 0, col := 0, ch := 0, k := 0, exh := false }

/-- `bit_write(b)` (R103). -/
def bitWrite (b : Bool) (s : State) : Flow Unit :=
  if s.exh then .raised .capacityExhausted s
  else
    (gridRead s.row s.col s.ch s).andThen fun v s =>
      (gridWrite s.row s.col s.ch (putBit v s.k b) s).andThen fun _ s => advance s

/-- `bit_read()` (R107): a raise of the advance loses the bit (R108). -/
def bitRead (s : State) : Flow Bool :=
  if s.exh then .raised .capacityExhausted s
  else
    (gridRead s.row s.col s.ch s).andThen fun v s =>
      (advance s).andThen fun _ t => .go (getBit v s.k) t

/-- `if VALID == 0: raise InvalidCarrier` (R151, R162). -/
def requireCarrier (s : State) : Flow Unit := if s.valid then .go () s else .raised .invalidCarrier s

/-- The end of a command that raised a signal (R165 (c), (d)): `LASTSIG <- S`, `ERRS <- 1`, a response with `rdata` 0. This is the machine's only exception entry; it saves nothing and goes nowhere (R169), so there
is no return from it (R175). Like every end of a command it leaves PAYIN empty (20_memory.md R56). -/
def raiseSignal (sig : Signal) (s : State) : State :=
  let t := { s with lastSig := sig.code, errs := true, payIn := [] }
  { t with response := some { sig := sig.code, flags := flagsByte t, rdata := 0#64 } }

/-- The end of a command with `OK` (R71, R85): `LASTSIG <- OK` (R30); PAYIN is not kept (R56). -/
def respond (rdata : Data) (s : State) : State :=
  let t := { s with lastSig := okCode, payIn := [] }
  { t with response := some { sig := okCode, flags := flagsByte t, rdata := rdata } }

/-- The end of a successful RDREG: a response, and no register changes, `LASTSIG` included (R155, R30); PAYIN is not kept
(R56). -/
def respondQuietly (rdata : Data) (s : State) : State :=
  { s with
    payIn := []
    response := some { sig := okCode, flags := flagsByte s, rdata := rdata } }

/-- A command's end: its response on `go` (with `rdata`), the signal on `raised`. -/
def Flow.finish (x : Flow Data) : Host.Outcome State Fault Refusal :=
  match x with
  | .go rdata s => .next (respond rdata s)
  | .raised sig s => .next (raiseSignal sig s)
  | .fault r => .fault r

/-- Every register at its reset value; GRID, PAYIN, PAYOUT, the last response and the host's moves untouched (R190, R38). -/
def resetRegisters (s : State) : State :=
  { s with
    height := 0, width := 0, channels := 0, row := 0, col := 0, ch := 0, k := 0,
    valid := false, exh := false, errs := false, lastSig := okCode }

end Sys2Proof.Machine
end

