-- ==== Sys2Proof/Machine/Converters.lean ====
section
/-! DEFINITION. The converters' commands (42_converters.md): TOBITS, FROMBITS. Each tests the legality of its word first
(30_encoding.md R80), as its pseudocode does; a decoded word has passed that test already (log 12). -/

namespace Sys2Proof.Machine

/-- TOBITS value, width (R115). -/
def execTobits (width : Byte) (value : Data) (s : State) : Host.Outcome State Fault Refusal :=
  (if legal : legalWidth width = true then
    match toBits value.toNat width.toNat (legalWidth_pos legal) with
    | .digits d => Flow.go (pack d) s
    | .raised sig => .raised sig s
  else .raised .illegalCommand s).finish

/-- FROMBITS digits, n (R120). -/
def execFrombits (n : Byte) (digits : Data) (s : State) : Host.Outcome State Fault Refusal :=
  (if legal : legalWidth n = true ∧ noStrayDigit n digits = true then
    Flow.go (BitVec.ofNat 64 (numberOf (legalWidth_pos legal.1) ⟨unpack digits n.toNat, unpack_length digits n.toNat⟩)) s
  else .raised .illegalCommand s).finish

end Sys2Proof.Machine
end

