-- ==== Sys2Proof/Machine/CursorWalker.lean ====
section
/-! DEFINITION. The cursor walker's command (40_cursor_walker.md): ADV. -/

namespace Sys2Proof.Machine

/-- ADV (R91): advance the cursor by one slot without touching the grid. -/
def execAdv (s : State) : Host.Outcome State Fault Refusal :=
  ((requireCarrier s).andThen fun _ s => (advance s).andThen fun _ s => .go 0#64 s).finish

end Sys2Proof.Machine
end

