-- ==== Sys2Proof/Machine/FrameCodec.lean ====
section
/-! DEFINITION. The frame encoder and decoder (43_frame_codec.md): ENCODE, DECODE. -/

namespace Sys2Proof.Machine

/-- `bit_write` of each digit in turn, first digit first (R131). -/
def bitWrites : List Bool → State → Flow Unit
  | [], s => .go () s
  | b :: bs, s => (bitWrite b s).andThen fun _ s => bitWrites bs s

/-- `to_bits(value, width)` followed by the bit writes of its digits (R131). -/
def writeInteger (value width : Nat) (positive : 1 ≤ width) (s : State) : Flow Unit :=
  match toBits value width positive with
  | .digits d => bitWrites d s
  | .raised sig => .raised sig s

/-- The payload loop of R131: each byte as eight digits. -/
def writeBytes : List Byte → State → Flow Unit
  | [], s => .go () s
  | v :: vs, s => (writeInteger v.toNat Config.byteBits (by decide) s).andThen fun _ s => writeBytes vs s

/-- ENCODE (R131): the checks, `to_bits(L, 64)`, `rewind`, the prefix, the payload. -/
def execEncode (len : Data) (s : State) : Host.Outcome State Fault Refusal :=
  ((requireCarrier s).andThen fun _ s =>
    if s.capacity < Config.lenBits + Config.byteBits * len.toNat then .raised .carrierTooSmall s
    else
      match toBits len.toNat Config.lenBits (by decide) with
      | .raised sig => .raised sig s
      | .digits d =>
        (bitWrites d (rewind s)).andThen fun _ s =>
          (writeBytes (payload s.payIn len.toNat) s).andThen fun _ s => .go len s).finish

/-- `n` bit reads in turn, as a digit string (R136). -/
def bitReads : (n : Nat) → State → Flow (DigitString n)
  | 0, s => .go ⟨[], rfl⟩ s
  | n + 1, s =>
    (bitRead s).andThen fun b s =>
      (bitReads n s).andThen fun bs s => .go ⟨b :: bs.val, congrArg Nat.succ bs.property⟩ s

/-- The payload loop of R136: `n` bytes of eight digits each. It ends at the first bit read that raises, however large
`n` is (70_reset_and_hazards.md R211). -/
def readBytes : Nat → State → Flow (List Byte)
  | 0, s => .go [] s
  | n + 1, s =>
    (bitReads Config.byteBits s).andThen fun e s =>
      (readBytes n s).andThen fun vs s => .go (BitVec.ofNat 8 (numberOf (by decide) e) :: vs) s

/-- DECODE (R136); exhaustion inside it is `TruncatedOrCorruptData` (R138). -/
def execDecode (s : State) : Host.Outcome State Fault Refusal :=
  ((requireCarrier s).andThen fun _ s =>
    ((bitReads Config.lenBits (rewind s)).andThen fun d s =>
      (readBytes (numberOf (by decide) d) s).andThen fun vs s =>
        .go (BitVec.ofNat 64 (numberOf (by decide) d)) (writePayOut vs s)).surfaceTruncation).finish

end Sys2Proof.Machine
end

