-- ==== Sys2Proof/Machine/MaskBitIo.lean ====
section
/-! DEFINITION. The mask pair, the bit writer and the bit reader (41_mask_bit_io.md): MASK, WBIT, RBIT. -/

namespace Sys2Proof.Machine

/-- MASK k (R100): the pair as `rdata[15:8] = clr`, `rdata[7:0] = set`; no register is read. -/
def execMask (k : BitVec 3) (s : State) : Host.Outcome State Fault Refusal :=
  (Flow.go ((clrMask k ++ setMask k).setWidth 64) s).finish

/-- WBIT b (R103): write one bit at the current slot, then advance. -/
def execWbit (b : Bool) (s : State) : Host.Outcome State Fault Refusal :=
  ((requireCarrier s).andThen fun _ s => (bitWrite b s).andThen fun _ s => .go 0#64 s).finish

/-- RBIT (R107): read one bit at the current slot, then advance. -/
def execRbit (s : State) : Host.Outcome State Fault Refusal :=
  ((requireCarrier s).andThen fun _ s =>
    (bitRead s).andThen fun bit s => .go ((BitVec.ofBool bit).setWidth 64) s).finish

end Sys2Proof.Machine
end

