-- ==== Sys2Proof/Machine/System.lean ====
section
/-! DEFINITION. Construction and state read-out (44_system.md): INIT, RDREG. -/

namespace Sys2Proof.Machine

/-- What a failed INIT writes before it raises: the carrier unbound (R150). -/
def unbindCarrier (s : State) : State :=
  { s with
    valid := false, height := 0, width := 0, channels := 0, row := 0, col := 0, ch := 0, k := 0, exh := false }

/-- What a successful INIT writes: the dimensions, the cursor at the start, `ERRS` cleared, `VALID` set (R150). -/
def bindCarrier (h w c : Nat) (s : State) : State :=
  { s with
    height := h, width := w, channels := c, row := 0, col := 0, ch := 0, k := 0,
    exh := false, errs := false, valid := true }

/-- INIT height, width, channels (R150). The legality of the word comes first, as in its pseudocode; a decoded word has
passed that test already (log 12). -/
def execInit (h w c : Nat) (s : State) : Host.Outcome State Fault Refusal :=
  (if dimensionsFit s.params h w c = false then .raised .illegalCommand s
  else if h = 0 ∨ w = 0 ∨ c = 0 then .raised .invalidCarrier (unbindCarrier s)
  else Flow.go (BitVec.ofNat 64 (capacityOf h w c)) (bindCarrier h w c s)).finish

/-- RDREG idx (R155). -/
def execRdreg (r : RegName) (s : State) : Host.Outcome State Fault Refusal :=
  .next (respondQuietly (readReg s r) s)

end Sys2Proof.Machine
end

