-- ==== Sys2Proof/Machine/Dispatch.lean ====
section
/-! DEFINITION. One arm per command. -/

namespace Sys2Proof.Machine

/-- The command's effect (30_encoding.md R72). -/
def exec (i : Instr) (s : State) : Host.Outcome State Fault Refusal :=
  match i with
  | .init h w c => Sys2Proof.Machine.execInit h w c s
  | .adv => Sys2Proof.Machine.execAdv s
  | .wbit b => Sys2Proof.Machine.execWbit b s
  | .rbit => Sys2Proof.Machine.execRbit s
  | .mask k => Sys2Proof.Machine.execMask k s
  | .tobits width value => Sys2Proof.Machine.execTobits width value s
  | .frombits n digits => Sys2Proof.Machine.execFrombits n digits s
  | .encode len => Sys2Proof.Machine.execEncode len s
  | .decode => Sys2Proof.Machine.execDecode s
  | .rdreg r => Sys2Proof.Machine.execRdreg r s

end Sys2Proof.Machine
end

