-- ==== Sys2Proof/Machine/HostPort.lean ====
section
/-! DEFINITION. How the host's moves reach the codec (00_scope.md R2, R15): the model's place of fetching. -/

namespace Sys2Proof.Machine

/-- What taking the host's next move leads to. -/
inductive Fetched where
  /-- The host makes no move: the BCC is idle (60_exceptions.md R186). -/
  | idle
  /-- The move is over with this state. -/
  | done (s : State)
  /-- A legal command word was presented: run the command in this state. -/
  | command (i : Instr) (s : State)
deriving DecidableEq, Repr

/-- A presented word is decoded before anything else; an illegal one raises IllegalCommand (30_encoding.md R80,
60_exceptions.md R170). -/
def acceptWord (w : CommandWord) (s : State) : Fetched :=
  match decodeCommand s.params w with
  | .command i => .command i s
  | .illegal _ => .done (raiseSignal .illegalCommand s)

/-- Take the host's next move: a reset (R190), a store into the GRID (R61), or a command with its payload (R56). -/
def takeMove (s : State) : Fetched :=
  match s.host with
  | [] => .idle
  | .reset :: rest => .done (resetRegisters { s with host := rest })
  | .store slot v :: rest => .done { s with grid := Memory.write s.grid slot v, host := rest }
  | .command w p :: rest => acceptWord w { s with payIn := p, host := rest }

/-- The host presents this word next, with the payload placed in PAYIN for it. -/
def presentWord (w : CommandWord) (s : State) : State := { s with host := .command w s.payIn :: s.host }

end Sys2Proof.Machine
end

