-- ==== Sys2Proof/Machine/Step.lean ====
section
/-! DEFINITION. One step: one move of the host, and the command it presents, whole (00_scope.md R14, R15). -/

namespace Sys2Proof.Machine

/-- One step. An idle BCC keeps all state (60_exceptions.md R186, log 6). -/
def step (s : State) : Host.Outcome State Fault Refusal :=
  match takeMove s with
  | .idle => .next s
  | .done t => .next t
  | .command i t => exec i t

/-- The state in which the host presents this opcode-table word next (log 5). -/
def State.withFetchWord (s : State) (nbits w : Nat) : State := presentWord (tableWord nbits w) s

end Sys2Proof.Machine
end

