-- ==== Sys2Proof/Machine/Pseudo.lean ====
section
/-! DEFINITION. The pseudo-commands (30_encoding.md R84): fixed expansions into commands, run until one of them ends
with a signal other than `OK`. -/

namespace Sys2Proof.Machine

/-- The pseudo-commands of R84. -/
inductive Pseudo where
  | wbyte (v : Byte)
  | rbyte
  | wlen (v : Data)
  | rlen
  | rewind
deriving DecidableEq, Repr

/-- The expansion of a pseudo-command (R84); REWIND takes the dimension registers as they stand. -/
def Pseudo.expand (p : Pseudo) (s : State) : List Instr :=
  match p with
  | .wbyte v => (digitsOf v.toNat 8).map Instr.wbit
  | .rbyte => List.replicate 8 .rbit
  | .wlen v => (digitsOf v.toNat 64).map Instr.wbit
  | .rlen => List.replicate 64 .rbit
  | .rewind => [.init s.height s.width s.channels]

/-- Commands in order, with the responses they gave; the first that does not end `OK` is the last to run (R84). -/
def runCommands : List Instr → State → Host.Outcome (List Response × State) Fault Refusal
  | [], s => .next ([], s)
  | i :: is, s =>
    match exec i s with
    | .fault r => .fault r
    | .refused r => .refused r
    | .next t =>
      match t.response with
      | none => .next ([], t)
      | some r =>
        if r.sig = okCode then
          match runCommands is t with
          | .next (rs, u) => .next (r :: rs, u)
          | .fault f => .fault f
          | .refused f => .refused f
        else .next ([r], t)

/-- A pseudo-command, run from a state. -/
def Pseudo.run (p : Pseudo) (s : State) : Host.Outcome (List Response × State) Fault Refusal :=
  runCommands (p.expand s) s

/-- What RBYTE and RLEN read: the results taken as digits, the first most significant (R84). -/
def digitsRead (rs : List Response) : Nat := digitsValue (rs.map fun r => r.rdata.getLsbD 0)

end Sys2Proof.Machine
end

