-- ==== Sys2Proof/Safety.lean ====
section
/-! DEFINITION. The terms claims are stated in: the invariant of the machine, the stream position and its inverse
(40_cursor_walker.md R95), the frame and the bits of the stream (43_frame_codec.md R142, 20_memory.md R55, R67), and
the states a command ends in (30_encoding.md R71, 60_exceptions.md R165), written out field by field. -/

namespace Sys2Proof.Machine

/-- The cursor addresses a cell of the grid (10_state.md R24). -/
abbrev CursorInRange (s : State) : Prop :=
  s.row < s.height ∧ s.col < s.width ∧ s.ch < s.channels

/-- Every dimension and cursor register fits the width its machine's parameters give it (10_state.md R21, R22,
00_scope.md R9). -/
abbrev RegistersFit (s : State) : Prop :=
  s.height < 2 ^ s.params.rowBits ∧ s.width < 2 ^ s.params.colBits ∧ s.channels < 2 ^ s.params.chBits ∧
  s.row < 2 ^ s.params.rowBits ∧ s.col < 2 ^ s.params.colBits ∧ s.ch < 2 ^ s.params.chBits

/-- What every reachable state satisfies. -/
structure Inv (s : State) : Prop where
  /-- R21, R22: no register outgrows its width. -/
  fits : RegistersFit s
  /-- R24, with R21: in range while a carrier is bound. -/
  bound : s.valid = true → CursorInRange s
  /-- R27, R38, R150: with no carrier every dimension and cursor register is 0. -/
  unbound : s.valid = false →
    s.height = 0 ∧ s.width = 0 ∧ s.channels = 0 ∧ s.row = 0 ∧ s.col = 0 ∧ s.ch = 0 ∧ s.k = 0 ∧ s.exh = false
  /-- R28: an exhausted cursor holds `(0,0,0)` and `K = 7`. -/
  exhausted : s.exh = true → s.row = 0 ∧ s.col = 0 ∧ s.ch = 0 ∧ s.k = 7
  /-- R161: codes above 0x06 are never produced. -/
  code : s.lastSig.toNat ≤ 6
  /-- R29, R30: `ERRS` is set while `LASTSIG` holds a signal other than `OK`. -/
  sticky : s.lastSig ≠ 0x00#8 → s.errs = true
  /-- The GRID list keeps its canonical form. -/
  grid : Memory.wf s.grid = true

/-- The slot index `s = (ROW * WIDTH + COL) * CHANNELS + CH` (R17, R95). -/
def State.slotIndex (s : State) : Nat := (s.row * s.width + s.col) * s.channels + s.ch

/-- The stream position `n = K * C + s` (R17, R95). -/
def State.streamPos (s : State) : Nat := s.k.toNat * s.capacity + s.slotIndex

/-- The state with its cursor at stream position `n`, by the inverse map of R95. -/
def State.atStream (s : State) (n : Nat) : State :=
  { s with
    k := BitVec.ofNat 3 (n / s.capacity)
    ch := n % s.capacity % s.channels
    col := n % s.capacity / s.channels % s.width
    row := n % s.capacity / (s.channels * s.width)
    exh := false }

/-- The state with its cursor exhausted (R94). -/
def State.exhausted (s : State) : State := { s with row := 0, col := 0, ch := 0, k := 7, exh := true }

/-- The state with this GRID, all else as in `s`. -/
def State.withGrid (s : State) (g : Memory) : State := { s with grid := g }

/-- The state with this payload in PAYOUT, all else as in `s`. -/
def State.withPayOut (s : State) (p : List Byte) : State := { s with payOut := p }

/-- `n` slot advances in turn, stopping at the first that raises (R92). -/
def advances : Nat → State → Flow Unit
  | 0, s => .go () s
  | n + 1, s => (advance s).andThen fun _ s => advances n s

/-- The frame of a payload (R142): its length in 64 digits, then each byte in 8, most significant digit first. -/
def frame (p : List Byte) : List Bool := digitsOf p.length 64 ++ p.flatMap fun v => digitsOf v.toNat 8

/-- Stream bit `n` of a grid of `C` cells: bit `n div C` of the cell with slot index `n mod C` (R67). -/
def streamBit (m : Memory) (c n : Nat) : Bool := (Memory.read m (n % c)).getLsbD (n / c)

/-- The length a grid's first 64 stream bits spell (R136). -/
def streamLength (m : Memory) (c : Nat) : Nat := digitsValue ((List.range 64).map (streamBit m c))

/-- Byte `j` of the payload a grid's stream holds (R136). -/
def streamByte (m : Memory) (c j : Nat) : Byte :=
  BitVec.ofNat 8 (digitsValue ((List.range 8).map fun i => streamBit m c (64 + 8 * j + i)))

/-- The state of a command that ends `OK` with this result: `LASTSIG` and the response, PAYIN gone (20_memory.md R56), all
else as in `s`. -/
def State.answerOk (s : State) (rdata : Data) : State :=
  { s with
    lastSig := 0x00#8
    payIn := []
    response := some { sig := 0x00#8, flags := flagsByte s, rdata := rdata } }

/-- The state of a command that ends with the signal of this code: `LASTSIG`, `ERRS` and the response, PAYIN gone, all
else as in `s`. -/
def State.answerSignal (s : State) (code : Byte) : State :=
  { s with
    lastSig := code
    errs := true
    payIn := []
    response := some { sig := code, flags := flagsByte { s with errs := true }, rdata := 0#64 } }

/-- A presented word is no command: whatever the state, it ends IllegalCommand, and `LASTSIG`, `ERRS`, the response and
PAYIN are all that changes (30_encoding.md R80, 60_exceptions.md R170). -/
def RaisesIllegal (w : CommandWord) : Prop := ∀ s : State, acceptWord w s = .done (s.answerSignal 0x06#8)

end Sys2Proof.Machine
end

