-- ==== Sys2Proof/Certificates/Slice0/Obligations.lean ====
section
/-! DEFINITION. The statements about the machine, one `def Obligations.<Name> : Prop` each. Nothing is proved here. -/

open Sys2Proof Sys2Proof.Machine

/-! ### Reset, the host's moves and the step -/

/-- Reset (10_state.md, section 9, 70_reset_and_hazards.md, section 1): the value of every register and derived view; GRID,
PAYIN, PAYOUT and the last response stay. The step that takes the host's reset move (that reset is a move of a list, and what
becomes of the response, is the model's own: logs 5 and 7); the state after reset of a machine of any parameters, and
`State.reset`, which has the defaults of 00_scope.md R9. -/
def Obligations.ResetGivesEveryRegisterItsValue : Prop :=
  (∀ (s : State) (rest : List HostMove), s.host = .reset :: rest →
    ∃ t, step s = .next t ∧
      t = { s with
        valid := false, exh := false, errs := false, lastSig := 0x00#8, height := 0, width := 0, channels := 0,
        row := 0, col := 0, ch := 0, k := 0, host := rest } ∧
      setMask t.k = 0x01#8 ∧ clrMask t.k = 0xFE#8 ∧ capacityReg t = 0) ∧
  (∀ p : Params, State.resetWith p = { State.resetWith p with
    params := p, valid := false, exh := false, errs := false, lastSig := 0x00#8, height := 0, width := 0,
    channels := 0, row := 0, col := 0, ch := 0, k := 0 }) ∧
  State.reset = State.resetWith .defaults ∧
  Params.defaults.rowBits = 24 ∧ Params.defaults.colBits = 24 ∧ Params.defaults.chBits = 16

/-- The invariant holds right after reset, with any parameters. -/
def Obligations.ResetMeetsTheInvariant : Prop := (∀ p : Params, Inv (State.resetWith p)) ∧ Inv State.reset

/-- Every step keeps the invariant: registers within the widths of the parameters (R21, R22, 00_scope.md R9), the
cursor in range while a carrier is bound (R24), zeros while none is, the exhausted cursor at `(0,0,0)`, `K = 7` (R28), no
code above 6 (R161), `ERRS` set beside a signal (R29, R30), and the canonical form of the GRID list. -/
def Obligations.StepKeepsTheInvariant : Prop := ∀ s t : State, Inv s → step s = .next t → Inv t

/-- 20_memory.md R54: no command reaches an address outside the grid; every command and every step ends with a next
state (60_exceptions.md R160, 70_reset_and_hazards.md R211). -/
def Obligations.NoCommandPresentsAnInvalidAddress : Prop :=
  ∀ s : State, Inv s → (∀ i : Instr, ∃ t, exec i s = .next t) ∧ ∃ t, step s = .next t

/-- A presented word that decodes runs its command, with its payload in PAYIN (the host's list of moves is the model's
own: log 5). -/
def Obligations.StepRunsTheDecodedCommand : Prop :=
  ∀ (s : State) (w : CommandWord) (p : List Byte) (rest : List HostMove) (i : Instr),
    s.host = .command w p :: rest → decodeCommand s.params w = .command i →
      step s = exec i { s with payIn := p, host := rest }

/-- 60_exceptions.md R170: an illegal word, tested before everything else, changes only `LASTSIG` and `ERRS` (and
ends, like every command, with a response and PAYIN gone): presented in any state, and as a step (the list of moves the
step takes it from is the model's own: log 5). -/
def Obligations.IllegalWordChangesOnlyLastsigAndErrs : Prop :=
  ∀ (s : State) (w : CommandWord) (e : DecodeError), decodeCommand s.params w = .illegal e →
    acceptWord w s = .done (s.answerSignal 0x06#8) ∧
    ∀ (p : List Byte) (rest : List HostMove), s.host = .command w p :: rest →
      step s = .next (State.answerSignal { s with payIn := p, host := rest } 0x06#8)

/-- An idle BCC keeps all state (R186, log 6); a store by the host replaces one cell and nothing else (R61). The list of
moves is the model's own (log 5). -/
def Obligations.IdleAndHostStoreSteps : Prop :=
  (∀ s : State, s.host = [] → step s = .next s) ∧
  ∀ (s : State) (slot : Nat) (v : Byte) (rest : List HostMove), s.host = .store slot v :: rest →
    ∃ g, step s = .next { s with grid := g, host := rest } ∧
      ∀ a, Memory.read g a = if a = slot then v else Memory.read s.grid a

/-! ### Encoding -/

/-- Decoding an encoded well-formed command gives it back, every operand at every value, at every choice of the
parameters of 00_scope.md R9. -/
def Obligations.DecodeOfEncodeIsTheCommand : Prop :=
  ∀ (p : Params) (i : Instr), WellFormed p i = true → decodeCommand p (encodeCommand p i) = .command i

/-- A word that decodes is the encoding of the command it decodes to, which is well formed: no two words are one
command. -/
def Obligations.EncodeOfDecodeIsTheWord : Prop :=
  ∀ (p : Params) (w : CommandWord) (i : Instr), decodeCommand p w = .command i →
    encodeCommand p i = w ∧ WellFormed p i = true

/-- 30_encoding.md R81: a word is a command exactly when it selects a row of the mask and match table and meets that
row's value conditions, the row is its command's, and at most one row matches. The table is sized for the default
parameters. -/
def Obligations.DecoderFollowsTheMaskTable : Prop :=
  (∀ w : CommandWord, ∀ r ∈ opcodeTable, ∀ q ∈ opcodeTable, r.selects w = true → q.selects w = true → r = q) ∧
  ∀ w : CommandWord, ∀ name : String,
    (∃ i, decodeCommand .defaults w = .command i ∧ i.mnemonic = name) ↔
      ∃ r ∈ opcodeTable, r.selects w = true ∧ r.mnemonic = name ∧
        (name = "TOBITS" ∨ name = "FROMBITS" → 1 ≤ (auxField w).toNat ∧ (auxField w).toNat ≤ 64) ∧
        (name = "FROMBITS" → ∀ j, (auxField w).toNat ≤ j → (dataField w).getLsbD j = false) ∧
        (name = "RDREG" → (auxField w).toNat ≤ 0x0A)

/-- Words written out from the spec's encodings decode to the commands they stand for: the examples of R150, R91, R103,
R107, R100, R115, R120, R131, R136 and R155. -/
def Obligations.SampleWordsDecode : Prop :=
  decodeCommand .defaults 0x01000000020000020003#80 = .command (.init 2 2 3) ∧
  decodeCommand .defaults 0x02000000000000000000#80 = .command .adv ∧
  decodeCommand .defaults 0x03010000000000000000#80 = .command (.wbit true) ∧
  decodeCommand .defaults 0x04000000000000000000#80 = .command .rbit ∧
  decodeCommand .defaults 0x05030000000000000000#80 = .command (.mask 3) ∧
  decodeCommand .defaults 0x06080000000000000005#80 = .command (.tobits 8 5) ∧
  decodeCommand .defaults 0x070800000000000000A5#80 = .command (.frombits 8 0xA5) ∧
  decodeCommand .defaults 0x08000000000000000001#80 = .command (.encode 1) ∧
  decodeCommand .defaults 0x09000000000000000000#80 = .command .decode ∧
  decodeCommand .defaults 0x0A070000000000000000#80 = .command (.rdreg .k) ∧
  decodeCommand .defaults 0x03020000000000000000#80 = .illegal .nonzeroField ∧
  decodeCommand .defaults 0x0B000000000000000000#80 = .illegal .reservedOp

/-- 30_encoding.md R70, the byte form: ten bytes, `op` first, `aux` next, then `data` from its highest byte down;
reading them gives the word back, and decoding bytes is decoding the word. -/
def Obligations.CommandBytesCarryTheWord : Prop :=
  ∀ (p : Params) (w : CommandWord) (rest : List Byte),
    wordBytes w = opField w :: auxField w :: (List.range 8).map (fun i => (dataField w).extractLsb' (8 * (7 - i)) 8) ∧
    wordOfBytes (wordBytes w ++ rest) = some (w, rest) ∧
    decodeBytes p (wordBytes w ++ rest) = (decodeCommand p w, rest)

/-! ### The mask pair -/

/-- 10_state.md R25, R26: the mask pair is `1 << k` and its 8-bit complement, `MASKLUT` holds it in 16 entries, the
writer selects `{0,K}` for a 1 and `{1,K}` for a 0, the reader `{0,K}`, and RDREG's two views are the pair of `K`. -/
def Obligations.MaskPairIsTheTable : Prop :=
  maskLut.length = 16 ∧
  ∀ k : BitVec 3,
    (setMask k).toNat = 2 ^ k.toNat ∧ clrMask k = ~~~ setMask k ∧ clrMask k = 0xFF#8 ^^^ setMask k ∧
    maskLutAt 0 k = setMask k ∧ maskLutAt 1 k = clrMask k ∧
    (∀ v : Byte, putBit v k true = v ||| maskLutAt 0 k ∧ putBit v k false = v &&& maskLutAt 1 k ∧
      getBit v k = decide (v &&& maskLutAt 0 k ≠ 0#8)) ∧
    ∀ s : State, s.k = k →
      (readReg s .setMask).toNat = (setMask k).toNat ∧ (readReg s .clrMask).toNat = (clrMask k).toNat

/-- 41_mask_bit_io.md R102: the update and the test in terms of `MASKLUT`, and their laws. -/
def Obligations.PutAndGetTouchOneBit : Prop :=
  ∀ (v : Byte) (k : BitVec 3) (b : Bool),
    putBit v k b = (if b then v ||| maskLutAt 0 k else v &&& maskLutAt 1 k) ∧
    getBit v k = decide (v &&& maskLutAt 0 k ≠ 0#8) ∧
    (∀ i, (putBit v k b).getLsbD i = if i = k.toNat then b else v.getLsbD i) ∧
    getBit v k = v.getLsbD k.toNat ∧ getBit (putBit v k b) k = b ∧ putBit v k (getBit v k) = v

/-- 41_mask_bit_io.md R100: MASK answers the pair of its operand, reads no register and changes `LASTSIG` only; a word
with a stray bit is illegal. -/
def Obligations.MaskAnswersThePair : Prop :=
  ∀ (k : BitVec 3) (s : State),
    encodeCommand s.params (.mask k) = 0x05#8 ++ 0#5 ++ k ++ 0#64 ∧
    exec (.mask k) s = .next (s.answerOk (0#48 ++ clrMask k ++ setMask k)) ∧
    ∀ (aux : Byte) (data : Data), 8 ≤ aux.toNat ∨ data ≠ 0#64 → RaisesIllegal (assemble 0x05#8 aux data)

/-! ### The cursor walker -/

/-- The closed form of the slot advance (40_cursor_walker.md, section 1): below the last slot-in-time the stream
position goes up by one, at the last slot-in-time the advance raises and leaves the exhausted cursor; the inverse map
takes every position to its cursor. -/
def Obligations.AdvanceFollowsTheClosedForm : Prop :=
  ∀ s : State, CursorInRange s → s.exh = false →
    s.streamPos < 8 * s.capacity ∧ s.atStream s.streamPos = s ∧
    (s.streamPos + 1 < 8 * s.capacity → advance s = .go () (s.atStream (s.streamPos + 1))) ∧
    (s.streamPos + 1 = 8 * s.capacity → advance s = .raised .capacityExhausted s.exhausted)

/-- From the start of the traversal exactly `8*C - 1` advances succeed, each reaching the position of its number, and
the next one fails and leaves the exhausted cursor (40_cursor_walker.md, section 1). -/
def Obligations.ExactlyEightPlanesOfAdvances : Prop :=
  ∀ s : State, 0 < s.capacity →
    (∀ n, n < 8 * s.capacity → advances n (rewind s) = .go () (s.atStream n) ∧ (s.atStream n).streamPos = n) ∧
    ∀ n, 8 * s.capacity ≤ n → advances n (rewind s) = .raised .capacityExhausted s.exhausted

/-- ADV below the last slot-in-time ends `OK` with the cursor one position on and nothing else changed
(40_cursor_walker.md, sections 1 and 2). -/
def Obligations.AdvMovesOneSlot : Prop :=
  ∀ s : State, s.valid = true → s.exh = false → CursorInRange s → s.streamPos + 1 < 8 * s.capacity →
    exec .adv s = .next ((s.atStream (s.streamPos + 1)).answerOk 0#64)

/-- ADV at the last slot of plane 7 raises CapacityExhausted and leaves the exhausted cursor; on an exhausted cursor it
raises the same and changes nothing more (40_cursor_walker.md, sections 1 and 2). -/
def Obligations.AdvExhaustsAtTheLastSlot : Prop :=
  ∀ s : State, s.valid = true →
    (s.exh = false → s.row + 1 = s.height → s.col + 1 = s.width →
      s.ch + 1 = s.channels → s.k = 7 →
        exec .adv s = .next (s.exhausted.answerSignal 0x03#8)) ∧
    (s.exh = true → exec .adv s = .next (s.answerSignal 0x03#8))

/-- 10_state.md R23: on ADV, WBIT and RBIT the bit depth stays, or steps by one (never past 7) as the cursor comes back
to `(0,0,0)`. -/
def Obligations.BitDepthStepsOnlyAtAFullWrap : Prop :=
  ∀ (i : Instr) (s t : State), (i = .adv ∨ i = .rbit ∨ ∃ b, i = .wbit b) → exec i s = .next t →
    t.k = s.k ∨ (t.k.toNat = s.k.toNat + 1 ∧ t.row = 0 ∧ t.col = 0 ∧ t.ch = 0)

/-! ### The GRID, the bit writer and the bit reader -/

/-- 20_memory.md R52, with R53: a write of a valid cell replaces its whole value and changes no other cell; a read has no
side effect and gives the latest value; every valid triple is an address of its own. -/
def Obligations.GridWriteReplacesOneCell : Prop :=
  ∀ (s : State) (r c h : Nat) (v : Byte), r < s.height → c < s.width → h < s.channels →
    (∃ u, gridRead r c h s = .go u s) ∧
    ∃ g, gridWrite r c h v s = .go () (s.withGrid g) ∧
      gridRead r c h (s.withGrid g) = .go v (s.withGrid g) ∧
      ∀ r' c' h' u, (r', c', h') ≠ (r, c, h) → gridRead r' c' h' s = .go u s →
        gridRead r' c' h' (s.withGrid g) = .go u (s.withGrid g)

/-- WBIT below the last slot-in-time ends `OK`: the cell under the cursor has `b` in bit `K` and its other bits as
before, no other cell changes, and the cursor is one position on (41_mask_bit_io.md, section 3). -/
def Obligations.WbitWritesOneBitAndAdvances : Prop :=
  ∀ (b : Bool) (s : State), s.valid = true → s.exh = false → CursorInRange s → s.streamPos + 1 < 8 * s.capacity →
    ∃ g, exec (.wbit b) s = .next (((s.atStream (s.streamPos + 1)).withGrid g).answerOk 0#64) ∧
      (∀ j, (Memory.read g s.slotIndex).getLsbD j =
        if j = s.k.toNat then b else (Memory.read s.grid s.slotIndex).getLsbD j) ∧
      ∀ a, a ≠ s.slotIndex → Memory.read g a = Memory.read s.grid a

/-- 41_mask_bit_io.md R104: on an exhausted cursor WBIT raises CapacityExhausted with no access; at the last slot of
plane 7 it stores its bit and then raises CapacityExhausted with the cursor exhausted. -/
def Obligations.WbitAndExhaustion : Prop :=
  ∀ (b : Bool) (s : State), s.valid = true →
    (s.exh = true → exec (.wbit b) s = .next (s.answerSignal 0x03#8)) ∧
    (s.exh = false → s.row + 1 = s.height → s.col + 1 = s.width →
      s.ch + 1 = s.channels → s.k = 7 →
        ∃ g, exec (.wbit b) s = .next ((s.exhausted.withGrid g).answerSignal 0x03#8) ∧
          (∀ j, (Memory.read g s.slotIndex).getLsbD j =
            if j = 7 then b else (Memory.read s.grid s.slotIndex).getLsbD j) ∧
          ∀ a, a ≠ s.slotIndex → Memory.read g a = Memory.read s.grid a)

/-- RBIT below the last slot-in-time answers bit `K` of the cell under the cursor and moves the cursor one position on;
no cell changes (41_mask_bit_io.md, section 4). -/
def Obligations.RbitReadsOneBitAndAdvances : Prop :=
  ∀ s : State, s.valid = true → s.exh = false → CursorInRange s → s.streamPos + 1 < 8 * s.capacity →
    exec .rbit s = .next ((s.atStream (s.streamPos + 1)).answerOk
      (0#63 ++ BitVec.ofBool ((Memory.read s.grid s.slotIndex).getLsbD s.k.toNat)))

/-- 41_mask_bit_io.md R108: on an exhausted cursor RBIT raises CapacityExhausted and changes nothing more; at the last
slot of plane 7 it raises it with the cursor exhausted, and the bit is not returned. -/
def Obligations.RbitAndExhaustion : Prop :=
  ∀ s : State, s.valid = true →
    (s.exh = true → exec .rbit s = .next (s.answerSignal 0x03#8)) ∧
    (s.exh = false → s.row + 1 = s.height → s.col + 1 = s.width →
      s.ch + 1 = s.channels → s.k = 7 →
        exec .rbit s = .next (s.exhausted.answerSignal 0x03#8))

/-- A bit written and then read at the same position is the bit written (41_mask_bit_io.md, section 4): the state after
the write, with the cursor put back, answers it. -/
def Obligations.BitReadAfterBitWrite : Prop :=
  ∀ (b : Bool) (s t : State), s.valid = true → s.exh = false → CursorInRange s →
    s.streamPos + 1 < 8 * s.capacity → exec (.wbit b) s = .next t →
      ∃ u, exec .rbit (t.atStream s.streamPos) = .next u ∧ u.grid = t.grid ∧
        ∃ r, u.response = some r ∧ r.sig = 0x00#8 ∧ r.rdata = 0#63 ++ BitVec.ofBool b

/-- 60_exceptions.md R162: InvalidCarrier from INIT when a dimension is 0, and from ADV, WBIT, RBIT, ENCODE and DECODE
when `VALID = 0`, which then change nothing more. -/
def Obligations.CommandsWithoutACarrier : Prop :=
  (∀ (s : State) (i : Instr), s.valid = false →
    (i = .adv ∨ i = .rbit ∨ i = .decode ∨ (∃ b, i = .wbit b) ∨ ∃ len, i = .encode len) →
      exec i s = .next (s.answerSignal 0x01#8)) ∧
  ∀ (s : State) (h w c : Nat), WellFormed s.params (.init h w c) = true → h = 0 ∨ w = 0 ∨ c = 0 →
      ∃ t r, exec (.init h w c) s = .next t ∧ t.lastSig = 0x01#8 ∧ t.response = some r ∧ r.sig = 0x01#8

/-! ### The converters -/

/-- 42_converters.md R115: `to_bits` gives exactly `width` digits, most significant first, and raises ValueTooLarge
exactly when `value ≥ 2^width`; TOBITS answers those digits packed, which is the value itself, or ends ValueTooLarge, and
changes nothing else; a width outside 1 to 64 is illegal. -/
def Obligations.TobitsChecksTheWidth : Prop :=
  (∀ (value width : Nat) (positive : 1 ≤ width),
    (2 ^ width ≤ value → toBits value width positive = .raised .valueTooLarge) ∧
    (value < 2 ^ width → ∃ d, toBits value width positive = .digits d ∧ d.length = width ∧
      ∀ i, i < width → d[i]? = some (decide (value / 2 ^ (width - 1 - i) % 2 = 1)))) ∧
  ∀ (width : Byte) (value : Data),
    (∀ p : Params, encodeCommand p (.tobits width value) = 0x06#8 ++ width ++ value) ∧
    (∀ positive : 1 ≤ width.toNat, width.toNat ≤ 64 → ∀ s : State,
      (value.toNat < 2 ^ width.toNat → exec (.tobits width value) s = .next (s.answerOk value) ∧
        ∃ d, toBits value.toNat width.toNat positive = .digits d ∧ pack d = value) ∧
      (2 ^ width.toNat ≤ value.toNat → exec (.tobits width value) s = .next (s.answerSignal 0x04#8))) ∧
    (width.toNat = 0 ∨ 64 < width.toNat → RaisesIllegal (assemble 0x06#8 width value))

/-- 42_converters.md R120: `from_bits` is the base-2 parse, first digit most significant; FROMBITS of `n` legal digits
answers the number they spell, which is its field's number, and changes nothing else; `n = 0`, `n > 64` or a 1 at bit `n`
or above is illegal. -/
def Obligations.FrombitsSpellsTheField : Prop :=
  (∀ (b : Bool) (one : 1 ≤ [b].length), fromBits [b] one = b.toNat) ∧
  (∀ (d : List Bool) (b : Bool) (nonempty : 1 ≤ d.length) (longer : 1 ≤ (d ++ [b]).length),
    fromBits (d ++ [b]) longer = fromBits d nonempty * 2 + b.toNat) ∧
  ∀ (n : Byte) (digits : Data),
    (∀ p : Params, encodeCommand p (.frombits n digits) = 0x07#8 ++ n ++ digits) ∧
    (1 ≤ n.toNat → n.toNat ≤ 64 → (∀ j, n.toNat ≤ j → digits.getLsbD j = false) →
      (∃ nonempty, digits.toNat = fromBits (unpack digits n.toNat) nonempty) ∧
      ∀ s : State, exec (.frombits n digits) s = .next (s.answerOk digits)) ∧
    (n.toNat = 0 ∨ 64 < n.toNat ∨ (∃ j, n.toNat ≤ j ∧ digits.getLsbD j = true) →
      RaisesIllegal (assemble 0x07#8 n digits))

/-- The converters are inverse to each other (42_converters.md, section 2). -/
def Obligations.ConvertersAreInverse : Prop :=
  (∀ (width value : Nat) (positive : 1 ≤ width), value < 2 ^ width →
    ∃ d nonempty, toBits value width positive = .digits d ∧ d.length = width ∧ fromBits d nonempty = value) ∧
  ∀ (d : List Bool) (nonempty : 1 ≤ d.length),
    fromBits d nonempty < 2 ^ d.length ∧ toBits (fromBits d nonempty) d.length nonempty = .digits d

/-- 30_encoding.md R77: a digit string of 1 to 64 digits is right-aligned in its field, first digit at bit `n-1`, bits
`63:n` zero; the field's number is the digits' number; TOBITS answers its digits packed so and FROMBITS takes them so. -/
def Obligations.PackingPlacesTheDigits : Prop :=
  ∀ (d : List Bool) (nonempty : 1 ≤ d.length), d.length ≤ 64 →
    (∀ i, i < d.length → d[i]? = some ((pack d).getLsbD (d.length - 1 - i))) ∧
    (∀ j, d.length ≤ j → (pack d).getLsbD j = false) ∧
    (pack d).toNat = fromBits d nonempty ∧ unpack (pack d) d.length = d ∧
    ∀ s : State,
      exec (.tobits (BitVec.ofNat 8 d.length) (BitVec.ofNat 64 (fromBits d nonempty))) s =
        .next (s.answerOk (pack d)) ∧
      exec (.frombits (BitVec.ofNat 8 d.length) (pack d)) s =
        .next (s.answerOk (BitVec.ofNat 64 (fromBits d nonempty)))

/-! ### The frame codec -/

/-- 43_frame_codec.md R134: with a carrier bound, ENCODE ends `OK` exactly when `64 + 8*L ≤ C`, and otherwise with
CarrierTooSmall. -/
def Obligations.EncodeCapacityBoundary : Prop :=
  ∀ (len : Data) (s : State), s.valid = true →
    ∃ t r, exec (.encode len) s = .next t ∧ t.response = some r ∧
      (r.sig = 0x00#8 ↔ 64 + 8 * len.toNat ≤ s.capacity) ∧
      (r.sig = 0x02#8 ↔ s.capacity < 64 + 8 * len.toNat)

/-- 60_exceptions.md R163: CarrierTooSmall is raised by ENCODE's check before anything is changed, and by nothing
else. -/
def Obligations.CarrierTooSmallOnlyUpFront : Prop :=
  (∀ (len : Data) (s : State), s.valid = true → s.capacity < 64 + 8 * len.toNat →
    exec (.encode len) s = .next (s.answerSignal 0x02#8)) ∧
  ∀ (i : Instr) (s t : State) (r : Response), exec i s = .next t → t.response = some r → r.sig = 0x02#8 →
    ∃ len, i = .encode len ∧ s.valid = true ∧ s.capacity < 64 + 8 * len.toNat

/-- An accepted ENCODE of a payload the host supplied whole ends `OK L` with the frame in bit 0 of the cells
`0 .. 64+8*L-1`, every other bit of every cell as before, and the cursor at stream position `64 + 8*L`
(43_frame_codec.md, section 2). -/
def Obligations.EncodeWritesTheFrame : Prop :=
  ∀ (len : Data) (s : State), s.valid = true → s.payIn.length = len.toNat → 64 + 8 * len.toNat ≤ s.capacity →
    ∃ g, exec (.encode len) s = .next (((s.atStream (64 + 8 * len.toNat)).withGrid g).answerOk len) ∧
      (frame s.payIn).length = 64 + 8 * len.toNat ∧
      (∀ a, a < 64 + 8 * len.toNat → (frame s.payIn)[a]? = some ((Memory.read g a).getLsbD 0)) ∧
      (∀ a j, j ≠ 0 → (Memory.read g a).getLsbD j = (Memory.read s.grid a).getLsbD j) ∧
      ∀ a, 64 + 8 * len.toNat ≤ a → Memory.read g a = Memory.read s.grid a

/-- DECODE of a grid whose parsed length `L` satisfies `L + 9 ≤ C` ends `OK L` and delivers in PAYOUT the `L` bytes
that the stream bits spell, across bit planes; no cell changes (43_frame_codec.md, section 3). -/
def Obligations.DecodeDeliversTheStream : Prop :=
  ∀ s : State, s.valid = true → streamLength s.grid s.capacity + 9 ≤ s.capacity →
    exec .decode s =
      .next (((s.atStream (64 + 8 * streamLength s.grid s.capacity)).withPayOut
        ((List.range (streamLength s.grid s.capacity)).map (streamByte s.grid s.capacity))).answerOk
        (BitVec.ofNat 64 (streamLength s.grid s.capacity)))

/-- DECODE of a grid too small for its parsed length ends with TruncatedOrCorruptData, delivers nothing and leaves the
exhausted cursor; no cell changes (43_frame_codec.md, section 3). That PAYOUT is then empty, whatever it held, is the
model's reading (log 8). -/
def Obligations.DecodeReportsTruncation : Prop :=
  ∀ s : State, s.valid = true → 0 < s.capacity → s.capacity < streamLength s.grid s.capacity + 9 →
    exec .decode s = .next ((s.exhausted.withPayOut []).answerSignal 0x05#8)

/-- 43_frame_codec.md R140: a payload encoded on a grid is decoded from any grid of the same dimensions that keeps
bit 0 of the frame's cells, whatever happened to the other bits and to the cursor. -/
def Obligations.DecodeOfEncodeIsThePayload : Prop :=
  ∀ (len : Data) (s t u : State), s.valid = true → s.payIn.length = len.toNat →
    64 + 8 * len.toNat ≤ s.capacity → exec (.encode len) s = .next t →
    u.valid = true → u.height = s.height → u.width = s.width → u.channels = s.channels →
    (∀ a, a < 64 + 8 * len.toNat → (Memory.read u.grid a).getLsbD 0 = (Memory.read t.grid a).getLsbD 0) →
      ∃ v r, exec .decode u = .next v ∧ v.response = some r ∧ v.grid = u.grid ∧
        r.sig = 0x00#8 ∧ r.rdata = len ∧ v.payOut = s.payIn

/-- 43_frame_codec.md R141: the empty payload needs `C ≥ 64`, clears bit 0 of the first 64 cells, answers `OK 0`, and
decodes to no byte. -/
def Obligations.EmptyPayloadRoundTrip : Prop :=
  ∀ s : State, s.valid = true →
    (s.capacity < 64 → exec (.encode 0) s = .next (s.answerSignal 0x02#8)) ∧
    (64 ≤ s.capacity →
      ∃ t, exec (.encode 0) s = .next t ∧ (∃ r, t.response = some r ∧ r.sig = 0x00#8 ∧ r.rdata = 0#64) ∧
        (∀ a j, (Memory.read t.grid a).getLsbD j =
          if a < 64 ∧ j = 0 then false else (Memory.read s.grid a).getLsbD j) ∧
        ∃ u r, exec .decode t = .next u ∧ u.response = some r ∧ r.sig = 0x00#8 ∧ r.rdata = 0#64 ∧ u.payOut = [])

/-- Where stream bit `n` lands (20_memory.md, section 3): bits written in turn from the start of the traversal fill bit
position `n div C` of the cell `n mod C`, and nothing else changes. -/
def Obligations.StreamBitsFillThePlanes : Prop :=
  ∀ (s : State) (bits : List Bool), bits.length < 8 * s.capacity →
    ∃ g, bitWrites bits (rewind s) = .go () ((s.atStream bits.length).withGrid g) ∧
      (∀ n, n < 8 * s.capacity → streamBit g s.capacity n = (bits[n]?).getD (streamBit s.grid s.capacity n)) ∧
      ∀ a, s.capacity ≤ a → Memory.read g a = Memory.read s.grid a

/-- DECODE depends on nothing but the number of cells and what they hold in slot order: two carriers alike in these
answer alike (43_frame_codec.md, section 3). That PAYOUT is alike after a DECODE that runs out of cells too is the model's
reading, which leaves it empty then (log 8). -/
def Obligations.DecodeSeesOnlyTheCells : Prop :=
  ∀ s t u : State, s.valid = true → t.valid = true → s.capacity = t.capacity →
    (∀ a, a < s.capacity → Memory.read s.grid a = Memory.read t.grid a) → exec .decode s = .next u →
      ∃ v r q, exec .decode t = .next v ∧ u.response = some r ∧ v.response = some q ∧
        q.sig = r.sig ∧ q.rdata = r.rdata ∧ v.payOut = u.payOut

/-- ENCODE and DECODE start at the start of the traversal whatever the cursor, the exhausted one included
(43_frame_codec.md R130, 60_exceptions.md R175, 70_reset_and_hazards.md, section 3): DECODE on every carrier, ENCODE when
it is accepted. -/
def Obligations.FrameCommandsDiscardTheCursor : Prop :=
  ∀ s : State, s.valid = true →
    (∀ n, exec .decode (s.atStream n) = exec .decode (rewind s)) ∧
    exec .decode s = exec .decode (rewind s) ∧ exec .decode s.exhausted = exec .decode (rewind s) ∧
    ∀ len : Data, 64 + 8 * len.toNat ≤ s.capacity →
      (∀ n, exec (.encode len) (s.atStream n) = exec (.encode len) (rewind s)) ∧
      exec (.encode len) s = exec (.encode len) (rewind s) ∧
      exec (.encode len) s.exhausted = exec (.encode len) (rewind s)

/-! ### Construction and read-out -/

/-- 44_system.md R150: INIT with no zero dimension binds the carrier, rewinds, clears `ERRS` and answers the exact
capacity; with a zero dimension it unbinds, zeroes every dimension and cursor register and raises InvalidCarrier. No
cell is touched. A word with `aux` not 0 is illegal. -/
def Obligations.InitBindsOrUnbinds : Prop :=
  (∀ (aux : Byte) (data : Data), aux ≠ 0#8 → RaisesIllegal (assemble 0x01#8 aux data)) ∧
  (∀ (h : BitVec 24) (w : BitVec 24) (c : BitVec 16),
    encodeCommand .defaults (.init h.toNat w.toNat c.toNat) = 0x01#8 ++ 0#8 ++ h ++ w ++ c) ∧
  ∀ (s : State) (h w c : Nat), WellFormed s.params (.init h w c) = true →
    (h ≠ 0 → w ≠ 0 → c ≠ 0 →
      ∃ d : Data, d.toNat = h * w * c ∧
        exec (.init h w c) s = .next (State.answerOk { s with
          height := h, width := w, channels := c, row := 0, col := 0, ch := 0, k := 0,
          exh := false, errs := false, valid := true } d)) ∧
    (h = 0 ∨ w = 0 ∨ c = 0 →
      exec (.init h w c) s = .next (State.answerSignal { s with
        valid := false, height := 0, width := 0, channels := 0, row := 0, col := 0, ch := 0, k := 0,
        exh := false } 0x01#8))

/-- INIT's fields at other parameters (30_encoding.md R74): `height` most significant, then `width`, then `channels`, each
of the width given; that they are right-aligned, with zeros above them, is the model's choice (log 14). -/
def Obligations.InitFieldsFollowTheParameters : Prop :=
  ∀ (p : Params) (h w c : Nat), WellFormed p (.init h w c) = true →
    opField (encodeCommand p (.init h w c)) = 0x01#8 ∧ auxField (encodeCommand p (.init h w c)) = 0#8 ∧
    (∀ j, j < p.chBits → (dataField (encodeCommand p (.init h w c))).getLsbD j = c.testBit j) ∧
    (∀ j, j < p.colBits → (dataField (encodeCommand p (.init h w c))).getLsbD (p.chBits + j) = w.testBit j) ∧
    (∀ j, j < p.rowBits →
      (dataField (encodeCommand p (.init h w c))).getLsbD (p.chBits + p.colBits + j) = h.testBit j) ∧
    (∀ j, p.capBits ≤ j → (dataField (encodeCommand p (.init h w c))).getLsbD j = false) ∧
    ∀ (data : Data) (j : Nat), p.capBits ≤ j → data.getLsbD j = true →
      ∃ e, decodeCommand p (assemble 0x01#8 0#8 data) = .illegal e

/-- 44_system.md R155, with 10_state.md R35, R31, R32: RDREG of each index of the register map answers that register's
value, zero-extended, and changes no register at all; an index above 0x0A, or `data` not 0, is illegal. The registers hold
what their widths can (the invariant's first part). -/
def Obligations.RdregReadsEveryRegister : Prop :=
  (∀ (r : RegName) (p : Params),
    decodeCommand p (0x0A#8 ++
      (match r with
        | .status => 0x00#8
        | .height => 0x01#8
        | .width => 0x02#8
        | .channels => 0x03#8
        | .row => 0x04#8
        | .col => 0x05#8
        | .ch => 0x06#8
        | .k => 0x07#8
        | .setMask => 0x08#8
        | .clrMask => 0x09#8
        | .capacity => 0x0A#8) ++ 0#64) = .command (.rdreg r)) ∧
  (∀ (r : RegName) (s : State), RegistersFit s →
    ∃ v : Data,
      exec (.rdreg r) s = .next { s with
        payIn := []
        response := some { sig := 0x00#8, flags := flagsByte s, rdata := v } } ∧
      v.toNat =
        match r with
        | .status => s.lastSig.toNat * 256 + s.errs.toNat * 4 + s.exh.toNat * 2 + s.valid.toNat
        | .height => s.height
        | .width => s.width
        | .channels => s.channels
        | .row => s.row
        | .col => s.col
        | .ch => s.ch
        | .k => s.k.toNat
        | .setMask => 2 ^ s.k.toNat
        | .clrMask => 255 - 2 ^ s.k.toNat
        | .capacity => if s.valid then s.height * s.width * s.channels else 0) ∧
  ∀ (idx : Byte) (data : Data), 0x0A < idx.toNat ∨ data ≠ 0#64 → RaisesIllegal (assemble 0x0A#8 idx data)

/-- 10_state.md R31: the bits of `STATUS`, which is read-only: what the host stores between commands leaves it alone
(that a store is a move of a list is the model's own: log 5). -/
def Obligations.StatusPacksTheFlags : Prop :=
  ∀ s : State,
    (statusReg s).getLsbD 0 = s.valid ∧ (statusReg s).getLsbD 1 = s.exh ∧ (statusReg s).getLsbD 2 = s.errs ∧
    (∀ j, 3 ≤ j → j < 8 → (statusReg s).getLsbD j = false) ∧
    (∀ j, j < 8 → (statusReg s).getLsbD (8 + j) = s.lastSig.getLsbD j) ∧
    (∀ j, 16 ≤ j → (statusReg s).getLsbD j = false) ∧
    ∀ (slot : Nat) (v : Byte) (rest : List HostMove) (t : State),
      s.host = .store slot v :: rest → step s = .next t → statusReg t = statusReg s

/-! ### Rules over all commands -/

/-- The write sets (10_state.md, section 10): the parameters and the host's moves change by no command; PAYIN is not kept
after any (20_memory.md R56); the dimensions and `VALID` change by INIT alone; the cursor by no MASK, TOBITS, FROMBITS or
RDREG; the grid by WBIT and ENCODE alone; PAYOUT by DECODE alone. -/
def Obligations.CommandsKeepToTheirWriteSets : Prop :=
  ∀ (i : Instr) (s t : State), exec i s = .next t →
    t.params = s.params ∧ t.payIn = [] ∧ t.host = s.host ∧
    ((∀ h w c, i ≠ .init h w c) →
      t.height = s.height ∧ t.width = s.width ∧ t.channels = s.channels ∧ t.valid = s.valid) ∧
    ((∃ k, i = .mask k) ∨ (∃ w v, i = .tobits w v) ∨ (∃ n d, i = .frombits n d) ∨ (∃ r, i = .rdreg r) →
      t.row = s.row ∧ t.col = s.col ∧ t.ch = s.ch ∧ t.k = s.k ∧ t.exh = s.exh) ∧
    ((∀ b, i ≠ .wbit b) → (∀ len, i ≠ .encode len) → t.grid = s.grid) ∧
    (i ≠ .decode → t.payOut = s.payOut)

/-- PAYOUT (20_memory.md R57, R59, 10_state.md R39, 70_reset_and_hazards.md R190): a DECODE that ends `OK L` leaves a
payload of `L` bytes there, one without a carrier leaves PAYOUT alone, and so do every other command, an illegal word, a
reset and a store by the host. That a DECODE that runs out of cells leaves PAYOUT empty is the model's reading (log 8), and
that reset and store are moves of a list is the model's own (log 5). -/
def Obligations.PayOutHoldsTheLatestPayload : Prop :=
  (∀ s t : State, exec .decode s = .next t →
    ∃ r, t.response = some r ∧ (r.sig = 0x00#8 → t.payOut.length = r.rdata.toNat) ∧
      (r.sig = 0x01#8 → t.payOut = s.payOut) ∧ (r.sig = 0x05#8 → t.payOut = []) ∧
      (r.sig = 0x00#8 ∨ r.sig = 0x01#8 ∨ r.sig = 0x05#8)) ∧
  (∀ (i : Instr) (s t : State), i ≠ .decode → exec i s = .next t → t.payOut = s.payOut) ∧
  (∀ (w : CommandWord) (e : DecodeError) (s t : State), decodeCommand s.params w = .illegal e → acceptWord w s = .done t →
    t.payOut = s.payOut) ∧
  ∀ (s t : State) (rest : List HostMove), s.host = .reset :: rest ∨ (∃ slot v, s.host = .store slot v :: rest) →
    step s = .next t → t.payOut = s.payOut

/-- 41_mask_bit_io.md R105, 43_frame_codec.md, section 2: whatever state it starts in and however it ends, WBIT changes
no cell but the one at the address of the cursor, and in it no bit but `K`; ENCODE changes no bit but bit 0 of the
cells below `64 + 8*L`. -/
def Obligations.GridWritersTouchOnlyTheirBits : Prop :=
  (∀ (b : Bool) (s t : State), exec (.wbit b) s = .next t →
    ∀ a, (gridAddress s s.row s.col s.ch ≠ some a → Memory.read t.grid a = Memory.read s.grid a) ∧
      ∀ j, j ≠ s.k.toNat → (Memory.read t.grid a).getLsbD j = (Memory.read s.grid a).getLsbD j) ∧
  ∀ (len : Data) (s t : State), exec (.encode len) s = .next t →
    ∀ a, (64 + 8 * len.toNat ≤ a → Memory.read t.grid a = Memory.read s.grid a) ∧
      ∀ j, j ≠ 0 → (Memory.read t.grid a).getLsbD j = (Memory.read s.grid a).getLsbD j

/-- 10_state.md R29: `ERRS` is set by every command that ends with a signal other than `OK`, an illegal word included,
cleared by reset and by a successful INIT, left alone by every other success; no other step clears it (the list of moves a
step takes is the model's own: log 5). -/
def Obligations.ErrsIsSticky : Prop :=
  (∀ (w : CommandWord) (e : DecodeError) (s t : State), decodeCommand s.params w = .illegal e → acceptWord w s = .done t →
    t.errs = true) ∧
  (∀ s : State, (resetRegisters s).errs = false) ∧
  (∀ (i : Instr) (s t : State), exec i s = .next t →
    ∃ r, t.response = some r ∧ (r.sig ≠ 0x00#8 → t.errs = true) ∧
      (r.sig = 0x00#8 → (∀ h w c, i ≠ .init h w c) → t.errs = s.errs) ∧
      (r.sig = 0x00#8 → (∃ h w c, i = .init h w c) → t.errs = false)) ∧
  ∀ s t : State, step s = .next t → s.errs = true → t.errs = false →
    ∃ rest, s.host = .reset :: rest ∨
      ∃ w p h x c, s.host = .command w p :: rest ∧ decodeCommand s.params w = .command (.init h x c) ∧
        t.lastSig = 0x00#8

/-- 10_state.md R30: every command but a successful RDREG leaves the code it ended with in `LASTSIG`, an illegal word the
code of IllegalCommand; a successful RDREG leaves it alone. -/
def Obligations.LastsigHoldsTheLatestCode : Prop :=
  (∀ (w : CommandWord) (e : DecodeError) (s t : State), decodeCommand s.params w = .illegal e → acceptWord w s = .done t →
    t.lastSig = 0x06#8 ∧ ∃ r, t.response = some r ∧ r.sig = 0x06#8) ∧
  ∀ (i : Instr) (s t : State), exec i s = .next t →
    ∃ r, t.response = some r ∧ ((∀ q, i ≠ .rdreg q) → t.lastSig = r.sig) ∧
      ((∃ q, i = .rdreg q) → r.sig = 0x00#8 ∧ t.lastSig = s.lastSig)

/-- 30_encoding.md R71, 20_memory.md R57: every command, an illegal word included, gives one response; its `flags` are
`STATUS[7:0]` after the command; a signal other than `OK` carries no result; only DECODE writes a payload to
PAYOUT. -/
def Obligations.EveryCommandGivesOneResponse : Prop :=
  (∀ (w : CommandWord) (e : DecodeError) (s t : State), decodeCommand s.params w = .illegal e → acceptWord w s = .done t →
    ∃ r, t.response = some r ∧ r.sig = 0x06#8 ∧ r.flags = (statusReg t).extractLsb' 0 8 ∧ r.rdata = 0#64 ∧
      t.payOut = s.payOut) ∧
  (∀ (i : Instr) (s t : State), exec i s = .next t →
    ∃ r, t.response = some r ∧ r.flags = (statusReg t).extractLsb' 0 8 ∧
      (r.sig ≠ 0x00#8 → r.rdata = 0#64) ∧ (i ≠ .decode → t.payOut = s.payOut)) ∧
  ∀ r : Response,
    r.word.extractLsb' 72 8 = r.sig ∧ r.word.extractLsb' 64 8 = r.flags ∧ r.word.extractLsb' 0 64 = r.rdata

/-- Which command can end with which signal (60_exceptions.md, section 1); the two dead cells of ENCODE are ruled out
too. -/
def Obligations.SignalsOfEachCommand : Prop :=
  ∀ (i : Instr) (s t : State) (r : Response), WellFormed s.params i = true → exec i s = .next t → t.response = some r →
    match i with
    | .init _ _ _ => r.sig = 0x00#8 ∨ r.sig = 0x01#8
    | .adv => r.sig = 0x00#8 ∨ r.sig = 0x01#8 ∨ r.sig = 0x03#8
    | .wbit _ => r.sig = 0x00#8 ∨ r.sig = 0x01#8 ∨ r.sig = 0x03#8
    | .rbit => r.sig = 0x00#8 ∨ r.sig = 0x01#8 ∨ r.sig = 0x03#8
    | .mask _ => r.sig = 0x00#8
    | .tobits _ _ => r.sig = 0x00#8 ∨ r.sig = 0x04#8
    | .frombits _ _ => r.sig = 0x00#8
    | .encode _ => r.sig = 0x00#8 ∨ r.sig = 0x01#8 ∨ r.sig = 0x02#8
    | .decode => r.sig = 0x00#8 ∨ r.sig = 0x01#8 ∨ r.sig = 0x05#8
    | .rdreg _ => r.sig = 0x00#8

/-! ### Pseudo-commands -/

/-- `WLEN L` followed by `WBYTE` of each payload byte, from the start of the traversal, writes the same cells as ENCODE
of that payload (30_encoding.md, section 7). -/
def Obligations.PrimitiveWritesEqualEncode : Prop :=
  ∀ (len : Data) (s t : State), s.valid = true → rewind s = s → s.payIn.length = len.toNat →
    64 + 8 * len.toNat ≤ s.capacity → exec (.encode len) s = .next t →
      ∃ rs u, runCommands ((Pseudo.wlen len).expand s ++ s.payIn.flatMap fun v => (Pseudo.wbyte v).expand s) s =
          .next (rs, u) ∧
        (∀ r ∈ rs, r.sig = 0x00#8) ∧ rs.length = 64 + 8 * len.toNat ∧ u.grid = t.grid

/-- RBYTE reads 8 stream bits from the cursor's position on, RLEN 64, as digits with the first most significant; REWIND
of a bound carrier, from any cursor and the exhausted one too, puts the cursor at the start, keeps the dimensions and
clears `EXH` and `ERRS` (30_encoding.md, section 7, 60_exceptions.md, section 5). -/
def Obligations.ReadingPseudoCommands : Prop :=
  (∀ (s : State) (p : Pseudo) (n : Nat), s.valid = true → s.exh = false → CursorInRange s →
    (p = .rbyte ∧ n = 8 ∨ p = .rlen ∧ n = 64) → s.streamPos + n < 8 * s.capacity →
      ∃ rs t, p.run s = .next (rs, t) ∧ rs.length = n ∧ t.grid = s.grid ∧ t.streamPos = s.streamPos + n ∧
        digitsRead rs = digitsValue ((List.range n).map fun i => streamBit s.grid s.capacity (s.streamPos + i))) ∧
  ∀ s : State, s.valid = true → 0 < s.capacity → RegistersFit s →
    ∃ r d, Pseudo.rewind.run s = .next ([r], State.answerOk { rewind s with errs := false } d) ∧
      r.sig = 0x00#8 ∧ r.rdata = d ∧ d.toNat = s.capacity
end

