-- ==== Sys2Proof/Laws/Bits.lean ====
section
/-! SUPPORT. The pure functions bit by bit: the single-bit update and test (41_mask_bit_io.md R101, R102) and digit
strings (42_converters.md R115, R120, 30_encoding.md R77). -/

namespace Sys2Proof.Machine

theorem setMask_getLsbD (k : BitVec 3) (i : Nat) : (setMask k).getLsbD i = decide (i = k.toNat) := by
  have hk := k.isLt
  rw [setMask, BitVec.getLsbD_shiftLeft]
  by_cases h : i = k.toNat
  · subst h
    simp [hk]
  · by_cases hi : i < k.toNat
    · simp [hi, h]
    · have : i - k.toNat ≠ 0 := by omega
      simp [h, BitVec.getLsbD_one, this]

theorem clrMask_getLsbD (k : BitVec 3) (i : Nat) : (clrMask k).getLsbD i = (decide (i < 8) && decide (i ≠ k.toNat)) := by
  have e : (0xFF#8 : Byte) = BitVec.allOnes 8 := rfl
  rw [clrMask, BitVec.getLsbD_xor, setMask_getLsbD, e, BitVec.getLsbD_allOnes]
  by_cases h : i = k.toNat
  · have := k.isLt
    simp [h, this]
  · simp [h]

/-- The update writes bit `k` and no other (R102). -/
theorem putBit_getLsbD (v : Byte) (k : BitVec 3) (b : Bool) (i : Nat) :
    (putBit v k b).getLsbD i = if i = k.toNat then b else v.getLsbD i := by
  have hk := k.isLt
  unfold putBit
  cases b
  · rw [if_neg (by simp), BitVec.getLsbD_and, clrMask_getLsbD]
    by_cases h : i = k.toNat
    · simp [h]
    · by_cases hi : i < 8
      · simp [h, hi]
      · simp [h, BitVec.getLsbD_of_ge v i (by omega)]
  · rw [if_pos rfl, BitVec.getLsbD_or, setMask_getLsbD]
    by_cases h : i = k.toNat <;> simp [h]

/-- The test reads bit `k` (R102). -/
theorem getBit_eq_getLsbD (v : Byte) (k : BitVec 3) : getBit v k = v.getLsbD k.toNat := by
  unfold getBit
  by_cases h : v.getLsbD k.toNat = true
  · rw [h, bne_iff_ne]
    intro e
    have := congrArg (fun x : Byte => x.getLsbD k.toNat) e
    simp [setMask_getLsbD, h] at this
  · rw [Bool.not_eq_true] at h
    rw [h]
    have : v &&& setMask k = 0#8 := by
      apply BitVec.eq_of_getLsbD_eq
      intro i _
      rw [BitVec.getLsbD_and, setMask_getLsbD]
      by_cases hi : i = k.toNat
      · simp [hi, h]
      · simp [hi]
    simp [this]

@[simp] theorem digitsOf_length (v w : Nat) : (digitsOf v w).length = w := by simp [digitsOf]

theorem digitsOf_getElem (v w i : Nat) (h : i < (digitsOf v w).length) : (digitsOf v w)[i] = v.testBit (w - 1 - i) := by
  simp [digitsOf]

/-- The digits of one more place: the new most significant digit, then the digits below it. -/
theorem digitsOf_succ (v w : Nat) : digitsOf v (w + 1) = v.testBit w :: digitsOf v w := by
  unfold digitsOf
  rw [List.range_succ_eq_map, List.map_cons, List.map_map]
  congr 1
  apply List.map_congr_left
  intro i _
  simp [Nat.sub_sub, Nat.add_comm]

/-- The parse of a string from a value: the value shifted above the digits, plus what they spell. -/
theorem foldl_parseDigit (d : List Bool) (a : Nat) : d.foldl parseDigit a = a * 2 ^ d.length + digitsValue d := by
  induction d generalizing a with
  | nil => simp [digitsValue]
  | cons b bs ih =>
    change bs.foldl parseDigit (parseDigit a b) = _ + bs.foldl parseDigit (parseDigit 0 b)
    rw [ih, ih (parseDigit 0 b)]
    simp only [parseDigit, List.length_cons, Nat.pow_succ]
    ring

theorem digitsValue_cons (b : Bool) (bs : List Bool) : digitsValue (b :: bs) = b.toNat * 2 ^ bs.length + digitsValue bs := by
  rw [digitsValue, List.foldl_cons, foldl_parseDigit]
  simp [parseDigit]

theorem digitsValue_lt (d : List Bool) : digitsValue d < 2 ^ d.length := by
  induction d with
  | nil => simp [digitsValue]
  | cons b bs ih =>
    rw [digitsValue_cons, List.length_cons, Nat.pow_succ]
    cases b <;> simp <;> omega

/-- The value of a digit string, digit by digit. -/
theorem digitsValue_testBit (d : List Bool) (j : Nat) :
    (digitsValue d).testBit j = (decide (j < d.length) && d.getD (d.length - 1 - j) false) := by
  induction d with
  | nil => simp [digitsValue]
  | cons b bs ih =>
    have hlt := digitsValue_lt bs
    rw [digitsValue_cons, Nat.mul_comm, Nat.testBit_two_pow_mul_add _ hlt]
    by_cases hj : j < bs.length
    · have e : bs.length + 1 - 1 - j = bs.length - 1 - j + 1 := by omega
      have h2 : j < bs.length + 1 := by omega
      rw [List.length_cons, e, List.getD_cons_succ, if_pos hj, ih]
      simp [hj, h2]
    · rw [if_neg hj]
      by_cases h3 : j = bs.length
      · subst h3
        cases b <;> simp
      · have h4 : ¬ j < bs.length + 1 := by omega
        obtain ⟨m, hm⟩ : ∃ m, j - bs.length = m + 1 := ⟨j - bs.length - 1, by omega⟩
        cases b <;> simp [h4, hm, Nat.testBit_succ]

end Sys2Proof.Machine
end

