-- ==== Sys2Proof/Laws/Flow.lean ====
section
/-! SUPPORT. How a command's pieces compose and end: one inversion lemma per way of composing. -/

namespace Sys2Proof.Machine

@[simp] theorem andThen_go {α β : Type} (a : α) (s : State) (f : α → State → Flow β) :
    (Flow.go a s).andThen f = f a s := rfl

@[simp] theorem andThen_raised {α β : Type} (sig : Signal) (s : State) (f : α → State → Flow β) :
    (Flow.raised sig s : Flow α).andThen f = .raised sig s := rfl

@[simp] theorem andThen_fault {α β : Type} (r : Fault) (f : α → State → Flow β) :
    (Flow.fault r : Flow α).andThen f = .fault r := rfl

/-- If a sequence goes on, both its parts did. -/
theorem go_of_andThen {α β : Type} {x : Flow α} {f : α → State → Flow β} {b : β} {t : State}
    (h : x.andThen f = .go b t) : ∃ a s, x = .go a s ∧ f a s = .go b t := by
  cases x with
  | go a s => exact ⟨a, s, rfl, h⟩
  | raised _ _ => cases h
  | fault _ => cases h

/-- If a sequence raises, its first part did, or went on into a second that did. -/
theorem raised_of_andThen {α β : Type} {x : Flow α} {f : α → State → Flow β} {sig : Signal} {t : State}
    (h : x.andThen f = .raised sig t) : x = .raised sig t ∨ ∃ a s, x = .go a s ∧ f a s = .raised sig t := by
  cases x with
  | go a s => exact .inr ⟨a, s, rfl, h⟩
  | raised _ _ => cases h; exact .inl rfl
  | fault _ => cases h

/-- If a command ends with a next state, it went on to a result or raised a signal. -/
theorem next_of_finish {x : Flow Data} {t : State} (h : x.finish = .next t) :
    (∃ d s, x = .go d s ∧ t = respond d s) ∨ ∃ sig s, x = .raised sig s ∧ t = raiseSignal sig s := by
  cases x with
  | go a s => cases h; exact .inl ⟨_, _, rfl, rfl⟩
  | raised sig s => cases h; exact .inr ⟨_, _, rfl, rfl⟩
  | fault _ => cases h

theorem requireCarrier_of_valid {s : State} (h : s.valid = true) : requireCarrier s = .go () s := by
  simp [requireCarrier, h]

theorem requireCarrier_of_not_valid {s : State} (h : s.valid = false) :
    requireCarrier s = .raised .invalidCarrier s := by
  simp [requireCarrier, h]

end Sys2Proof.Machine
end

