-- ==== Sys2Proof/Laws/State.lean ====
section
/-! SUPPORT. One lemma per field per named update of the state, so that no later proof unfolds a record update, and the
fields of the states the claims name. -/

namespace Sys2Proof.Machine

@[simp] theorem rewind_params (s : State) : (rewind s).params = s.params := rfl
@[simp] theorem rewind_height (s : State) : (rewind s).height = s.height := rfl
@[simp] theorem rewind_width (s : State) : (rewind s).width = s.width := rfl
@[simp] theorem rewind_channels (s : State) : (rewind s).channels = s.channels := rfl
@[simp] theorem rewind_row (s : State) : (rewind s).row = 0 := rfl
@[simp] theorem rewind_col (s : State) : (rewind s).col = 0 := rfl
@[simp] theorem rewind_ch (s : State) : (rewind s).ch = 0 := rfl
@[simp] theorem rewind_k (s : State) : (rewind s).k = 0 := rfl
@[simp] theorem rewind_valid (s : State) : (rewind s).valid = s.valid := rfl
@[simp] theorem rewind_exh (s : State) : (rewind s).exh = false := rfl
@[simp] theorem rewind_errs (s : State) : (rewind s).errs = s.errs := rfl
@[simp] theorem rewind_lastSig (s : State) : (rewind s).lastSig = s.lastSig := rfl
@[simp] theorem rewind_grid (s : State) : (rewind s).grid = s.grid := rfl
@[simp] theorem rewind_payIn (s : State) : (rewind s).payIn = s.payIn := rfl
@[simp] theorem rewind_payOut (s : State) : (rewind s).payOut = s.payOut := rfl
@[simp] theorem rewind_response (s : State) : (rewind s).response = s.response := rfl
@[simp] theorem rewind_host (s : State) : (rewind s).host = s.host := rfl

@[simp] theorem raiseSignal_params (sig : Signal) (s : State) : (raiseSignal sig s).params = s.params := rfl
@[simp] theorem raiseSignal_height (sig : Signal) (s : State) : (raiseSignal sig s).height = s.height := rfl
@[simp] theorem raiseSignal_width (sig : Signal) (s : State) : (raiseSignal sig s).width = s.width := rfl
@[simp] theorem raiseSignal_channels (sig : Signal) (s : State) : (raiseSignal sig s).channels = s.channels := rfl
@[simp] theorem raiseSignal_row (sig : Signal) (s : State) : (raiseSignal sig s).row = s.row := rfl
@[simp] theorem raiseSignal_col (sig : Signal) (s : State) : (raiseSignal sig s).col = s.col := rfl
@[simp] theorem raiseSignal_ch (sig : Signal) (s : State) : (raiseSignal sig s).ch = s.ch := rfl
@[simp] theorem raiseSignal_k (sig : Signal) (s : State) : (raiseSignal sig s).k = s.k := rfl
@[simp] theorem raiseSignal_valid (sig : Signal) (s : State) : (raiseSignal sig s).valid = s.valid := rfl
@[simp] theorem raiseSignal_exh (sig : Signal) (s : State) : (raiseSignal sig s).exh = s.exh := rfl
@[simp] theorem raiseSignal_errs (sig : Signal) (s : State) : (raiseSignal sig s).errs = true := rfl
@[simp] theorem raiseSignal_lastSig (sig : Signal) (s : State) : (raiseSignal sig s).lastSig = sig.code := rfl
@[simp] theorem raiseSignal_grid (sig : Signal) (s : State) : (raiseSignal sig s).grid = s.grid := rfl
@[simp] theorem raiseSignal_payIn (sig : Signal) (s : State) : (raiseSignal sig s).payIn = [] := rfl
@[simp] theorem raiseSignal_payOut (sig : Signal) (s : State) : (raiseSignal sig s).payOut = s.payOut := rfl
@[simp] theorem raiseSignal_response (sig : Signal) (s : State) : (raiseSignal sig s).response = some { sig := sig.code, flags := flagsByte { s with errs := true }, rdata := 0#64 } := rfl
@[simp] theorem raiseSignal_host (sig : Signal) (s : State) : (raiseSignal sig s).host = s.host := rfl

@[simp] theorem respond_params (d : Data) (s : State) : (respond d s).params = s.params := rfl
@[simp] theorem respond_height (d : Data) (s : State) : (respond d s).height = s.height := rfl
@[simp] theorem respond_width (d : Data) (s : State) : (respond d s).width = s.width := rfl
@[simp] theorem respond_channels (d : Data) (s : State) : (respond d s).channels = s.channels := rfl
@[simp] theorem respond_row (d : Data) (s : State) : (respond d s).row = s.row := rfl
@[simp] theorem respond_col (d : Data) (s : State) : (respond d s).col = s.col := rfl
@[simp] theorem respond_ch (d : Data) (s : State) : (respond d s).ch = s.ch := rfl
@[simp] theorem respond_k (d : Data) (s : State) : (respond d s).k = s.k := rfl
@[simp] theorem respond_valid (d : Data) (s : State) : (respond d s).valid = s.valid := rfl
@[simp] theorem respond_exh (d : Data) (s : State) : (respond d s).exh = s.exh := rfl
@[simp] theorem respond_errs (d : Data) (s : State) : (respond d s).errs = s.errs := rfl
@[simp] theorem respond_lastSig (d : Data) (s : State) : (respond d s).lastSig = 0x00#8 := rfl
@[simp] theorem respond_grid (d : Data) (s : State) : (respond d s).grid = s.grid := rfl
@[simp] theorem respond_payIn (d : Data) (s : State) : (respond d s).payIn = [] := rfl
@[simp] theorem respond_payOut (d : Data) (s : State) : (respond d s).payOut = s.payOut := rfl
@[simp] theorem respond_response (d : Data) (s : State) : (respond d s).response = some { sig := 0x00#8, flags := flagsByte s, rdata := d } := rfl
@[simp] theorem respond_host (d : Data) (s : State) : (respond d s).host = s.host := rfl

@[simp] theorem respondQuietly_params (d : Data) (s : State) : (respondQuietly d s).params = s.params := rfl
@[simp] theorem respondQuietly_height (d : Data) (s : State) : (respondQuietly d s).height = s.height := rfl
@[simp] theorem respondQuietly_width (d : Data) (s : State) : (respondQuietly d s).width = s.width := rfl
@[simp] theorem respondQuietly_channels (d : Data) (s : State) : (respondQuietly d s).channels = s.channels := rfl
@[simp] theorem respondQuietly_row (d : Data) (s : State) : (respondQuietly d s).row = s.row := rfl
@[simp] theorem respondQuietly_col (d : Data) (s : State) : (respondQuietly d s).col = s.col := rfl
@[simp] theorem respondQuietly_ch (d : Data) (s : State) : (respondQuietly d s).ch = s.ch := rfl
@[simp] theorem respondQuietly_k (d : Data) (s : State) : (respondQuietly d s).k = s.k := rfl
@[simp] theorem respondQuietly_valid (d : Data) (s : State) : (respondQuietly d s).valid = s.valid := rfl
@[simp] theorem respondQuietly_exh (d : Data) (s : State) : (respondQuietly d s).exh = s.exh := rfl
@[simp] theorem respondQuietly_errs (d : Data) (s : State) : (respondQuietly d s).errs = s.errs := rfl
@[simp] theorem respondQuietly_lastSig (d : Data) (s : State) : (respondQuietly d s).lastSig = s.lastSig := rfl
@[simp] theorem respondQuietly_grid (d : Data) (s : State) : (respondQuietly d s).grid = s.grid := rfl
@[simp] theorem respondQuietly_payIn (d : Data) (s : State) : (respondQuietly d s).payIn = [] := rfl
@[simp] theorem respondQuietly_payOut (d : Data) (s : State) : (respondQuietly d s).payOut = s.payOut := rfl
@[simp] theorem respondQuietly_response (d : Data) (s : State) : (respondQuietly d s).response = some { sig := 0x00#8, flags := flagsByte s, rdata := d } := rfl
@[simp] theorem respondQuietly_host (d : Data) (s : State) : (respondQuietly d s).host = s.host := rfl

@[simp] theorem resetRegisters_params (s : State) : (resetRegisters s).params = s.params := rfl
@[simp] theorem resetRegisters_height (s : State) : (resetRegisters s).height = 0 := rfl
@[simp] theorem resetRegisters_width (s : State) : (resetRegisters s).width = 0 := rfl
@[simp] theorem resetRegisters_channels (s : State) : (resetRegisters s).channels = 0 := rfl
@[simp] theorem resetRegisters_row (s : State) : (resetRegisters s).row = 0 := rfl
@[simp] theorem resetRegisters_col (s : State) : (resetRegisters s).col = 0 := rfl
@[simp] theorem resetRegisters_ch (s : State) : (resetRegisters s).ch = 0 := rfl
@[simp] theorem resetRegisters_k (s : State) : (resetRegisters s).k = 0 := rfl
@[simp] theorem resetRegisters_valid (s : State) : (resetRegisters s).valid = false := rfl
@[simp] theorem resetRegisters_exh (s : State) : (resetRegisters s).exh = false := rfl
@[simp] theorem resetRegisters_errs (s : State) : (resetRegisters s).errs = false := rfl
@[simp] theorem resetRegisters_lastSig (s : State) : (resetRegisters s).lastSig = 0x00#8 := rfl
@[simp] theorem resetRegisters_grid (s : State) : (resetRegisters s).grid = s.grid := rfl
@[simp] theorem resetRegisters_payIn (s : State) : (resetRegisters s).payIn = s.payIn := rfl
@[simp] theorem resetRegisters_payOut (s : State) : (resetRegisters s).payOut = s.payOut := rfl
@[simp] theorem resetRegisters_response (s : State) : (resetRegisters s).response = s.response := rfl
@[simp] theorem resetRegisters_host (s : State) : (resetRegisters s).host = s.host := rfl

@[simp] theorem unbindCarrier_params (s : State) : (unbindCarrier s).params = s.params := rfl
@[simp] theorem unbindCarrier_height (s : State) : (unbindCarrier s).height = 0 := rfl
@[simp] theorem unbindCarrier_width (s : State) : (unbindCarrier s).width = 0 := rfl
@[simp] theorem unbindCarrier_channels (s : State) : (unbindCarrier s).channels = 0 := rfl
@[simp] theorem unbindCarrier_row (s : State) : (unbindCarrier s).row = 0 := rfl
@[simp] theorem unbindCarrier_col (s : State) : (unbindCarrier s).col = 0 := rfl
@[simp] theorem unbindCarrier_ch (s : State) : (unbindCarrier s).ch = 0 := rfl
@[simp] theorem unbindCarrier_k (s : State) : (unbindCarrier s).k = 0 := rfl
@[simp] theorem unbindCarrier_valid (s : State) : (unbindCarrier s).valid = false := rfl
@[simp] theorem unbindCarrier_exh (s : State) : (unbindCarrier s).exh = false := rfl
@[simp] theorem unbindCarrier_errs (s : State) : (unbindCarrier s).errs = s.errs := rfl
@[simp] theorem unbindCarrier_lastSig (s : State) : (unbindCarrier s).lastSig = s.lastSig := rfl
@[simp] theorem unbindCarrier_grid (s : State) : (unbindCarrier s).grid = s.grid := rfl
@[simp] theorem unbindCarrier_payIn (s : State) : (unbindCarrier s).payIn = s.payIn := rfl
@[simp] theorem unbindCarrier_payOut (s : State) : (unbindCarrier s).payOut = s.payOut := rfl
@[simp] theorem unbindCarrier_response (s : State) : (unbindCarrier s).response = s.response := rfl
@[simp] theorem unbindCarrier_host (s : State) : (unbindCarrier s).host = s.host := rfl

@[simp] theorem bindCarrier_params (h w c : Nat) (s : State) : (bindCarrier h w c s).params = s.params := rfl
@[simp] theorem bindCarrier_height (h w c : Nat) (s : State) : (bindCarrier h w c s).height = h := rfl
@[simp] theorem bindCarrier_width (h w c : Nat) (s : State) : (bindCarrier h w c s).width = w := rfl
@[simp] theorem bindCarrier_channels (h w c : Nat) (s : State) : (bindCarrier h w c s).channels = c := rfl
@[simp] theorem bindCarrier_row (h w c : Nat) (s : State) : (bindCarrier h w c s).row = 0 := rfl
@[simp] theorem bindCarrier_col (h w c : Nat) (s : State) : (bindCarrier h w c s).col = 0 := rfl
@[simp] theorem bindCarrier_ch (h w c : Nat) (s : State) : (bindCarrier h w c s).ch = 0 := rfl
@[simp] theorem bindCarrier_k (h w c : Nat) (s : State) : (bindCarrier h w c s).k = 0 := rfl
@[simp] theorem bindCarrier_valid (h w c : Nat) (s : State) : (bindCarrier h w c s).valid = true := rfl
@[simp] theorem bindCarrier_exh (h w c : Nat) (s : State) : (bindCarrier h w c s).exh = false := rfl
@[simp] theorem bindCarrier_errs (h w c : Nat) (s : State) : (bindCarrier h w c s).errs = false := rfl
@[simp] theorem bindCarrier_lastSig (h w c : Nat) (s : State) : (bindCarrier h w c s).lastSig = s.lastSig := rfl
@[simp] theorem bindCarrier_grid (h w c : Nat) (s : State) : (bindCarrier h w c s).grid = s.grid := rfl
@[simp] theorem bindCarrier_payIn (h w c : Nat) (s : State) : (bindCarrier h w c s).payIn = s.payIn := rfl
@[simp] theorem bindCarrier_payOut (h w c : Nat) (s : State) : (bindCarrier h w c s).payOut = s.payOut := rfl
@[simp] theorem bindCarrier_response (h w c : Nat) (s : State) : (bindCarrier h w c s).response = s.response := rfl
@[simp] theorem bindCarrier_host (h w c : Nat) (s : State) : (bindCarrier h w c s).host = s.host := rfl

@[simp] theorem State.atStream_params (s : State) (n : Nat) : (s.atStream n).params = s.params := rfl
@[simp] theorem State.atStream_height (s : State) (n : Nat) : (s.atStream n).height = s.height := rfl
@[simp] theorem State.atStream_width (s : State) (n : Nat) : (s.atStream n).width = s.width := rfl
@[simp] theorem State.atStream_channels (s : State) (n : Nat) : (s.atStream n).channels = s.channels := rfl
@[simp] theorem State.atStream_valid (s : State) (n : Nat) : (s.atStream n).valid = s.valid := rfl
@[simp] theorem State.atStream_exh (s : State) (n : Nat) : (s.atStream n).exh = false := rfl
@[simp] theorem State.atStream_errs (s : State) (n : Nat) : (s.atStream n).errs = s.errs := rfl
@[simp] theorem State.atStream_lastSig (s : State) (n : Nat) : (s.atStream n).lastSig = s.lastSig := rfl
@[simp] theorem State.atStream_grid (s : State) (n : Nat) : (s.atStream n).grid = s.grid := rfl
@[simp] theorem State.atStream_payIn (s : State) (n : Nat) : (s.atStream n).payIn = s.payIn := rfl
@[simp] theorem State.atStream_payOut (s : State) (n : Nat) : (s.atStream n).payOut = s.payOut := rfl
@[simp] theorem State.atStream_response (s : State) (n : Nat) : (s.atStream n).response = s.response := rfl
@[simp] theorem State.atStream_host (s : State) (n : Nat) : (s.atStream n).host = s.host := rfl

@[simp] theorem State.exhausted_params (s : State) : (s.exhausted).params = s.params := rfl
@[simp] theorem State.exhausted_height (s : State) : (s.exhausted).height = s.height := rfl
@[simp] theorem State.exhausted_width (s : State) : (s.exhausted).width = s.width := rfl
@[simp] theorem State.exhausted_channels (s : State) : (s.exhausted).channels = s.channels := rfl
@[simp] theorem State.exhausted_row (s : State) : (s.exhausted).row = 0 := rfl
@[simp] theorem State.exhausted_col (s : State) : (s.exhausted).col = 0 := rfl
@[simp] theorem State.exhausted_ch (s : State) : (s.exhausted).ch = 0 := rfl
@[simp] theorem State.exhausted_k (s : State) : (s.exhausted).k = 7 := rfl
@[simp] theorem State.exhausted_valid (s : State) : (s.exhausted).valid = s.valid := rfl
@[simp] theorem State.exhausted_exh (s : State) : (s.exhausted).exh = true := rfl
@[simp] theorem State.exhausted_errs (s : State) : (s.exhausted).errs = s.errs := rfl
@[simp] theorem State.exhausted_lastSig (s : State) : (s.exhausted).lastSig = s.lastSig := rfl
@[simp] theorem State.exhausted_grid (s : State) : (s.exhausted).grid = s.grid := rfl
@[simp] theorem State.exhausted_payIn (s : State) : (s.exhausted).payIn = s.payIn := rfl
@[simp] theorem State.exhausted_payOut (s : State) : (s.exhausted).payOut = s.payOut := rfl
@[simp] theorem State.exhausted_response (s : State) : (s.exhausted).response = s.response := rfl
@[simp] theorem State.exhausted_host (s : State) : (s.exhausted).host = s.host := rfl

@[simp] theorem State.answerOk_params (s : State) (d : Data) : (s.answerOk d).params = s.params := rfl
@[simp] theorem State.answerOk_height (s : State) (d : Data) : (s.answerOk d).height = s.height := rfl
@[simp] theorem State.answerOk_width (s : State) (d : Data) : (s.answerOk d).width = s.width := rfl
@[simp] theorem State.answerOk_channels (s : State) (d : Data) : (s.answerOk d).channels = s.channels := rfl
@[simp] theorem State.answerOk_row (s : State) (d : Data) : (s.answerOk d).row = s.row := rfl
@[simp] theorem State.answerOk_col (s : State) (d : Data) : (s.answerOk d).col = s.col := rfl
@[simp] theorem State.answerOk_ch (s : State) (d : Data) : (s.answerOk d).ch = s.ch := rfl
@[simp] theorem State.answerOk_k (s : State) (d : Data) : (s.answerOk d).k = s.k := rfl
@[simp] theorem State.answerOk_valid (s : State) (d : Data) : (s.answerOk d).valid = s.valid := rfl
@[simp] theorem State.answerOk_exh (s : State) (d : Data) : (s.answerOk d).exh = s.exh := rfl
@[simp] theorem State.answerOk_errs (s : State) (d : Data) : (s.answerOk d).errs = s.errs := rfl
@[simp] theorem State.answerOk_lastSig (s : State) (d : Data) : (s.answerOk d).lastSig = 0x00#8 := rfl
@[simp] theorem State.answerOk_grid (s : State) (d : Data) : (s.answerOk d).grid = s.grid := rfl
@[simp] theorem State.answerOk_payIn (s : State) (d : Data) : (s.answerOk d).payIn = [] := rfl
@[simp] theorem State.answerOk_payOut (s : State) (d : Data) : (s.answerOk d).payOut = s.payOut := rfl
@[simp] theorem State.answerOk_response (s : State) (d : Data) : (s.answerOk d).response = some { sig := 0x00#8, flags := flagsByte s, rdata := d } := rfl
@[simp] theorem State.answerOk_host (s : State) (d : Data) : (s.answerOk d).host = s.host := rfl

@[simp] theorem State.answerSignal_params (s : State) (c : Byte) : (s.answerSignal c).params = s.params := rfl
@[simp] theorem State.answerSignal_height (s : State) (c : Byte) : (s.answerSignal c).height = s.height := rfl
@[simp] theorem State.answerSignal_width (s : State) (c : Byte) : (s.answerSignal c).width = s.width := rfl
@[simp] theorem State.answerSignal_channels (s : State) (c : Byte) : (s.answerSignal c).channels = s.channels := rfl
@[simp] theorem State.answerSignal_row (s : State) (c : Byte) : (s.answerSignal c).row = s.row := rfl
@[simp] theorem State.answerSignal_col (s : State) (c : Byte) : (s.answerSignal c).col = s.col := rfl
@[simp] theorem State.answerSignal_ch (s : State) (c : Byte) : (s.answerSignal c).ch = s.ch := rfl
@[simp] theorem State.answerSignal_k (s : State) (c : Byte) : (s.answerSignal c).k = s.k := rfl
@[simp] theorem State.answerSignal_valid (s : State) (c : Byte) : (s.answerSignal c).valid = s.valid := rfl
@[simp] theorem State.answerSignal_exh (s : State) (c : Byte) : (s.answerSignal c).exh = s.exh := rfl
@[simp] theorem State.answerSignal_errs (s : State) (c : Byte) : (s.answerSignal c).errs = true := rfl
@[simp] theorem State.answerSignal_lastSig (s : State) (c : Byte) : (s.answerSignal c).lastSig = c := rfl
@[simp] theorem State.answerSignal_grid (s : State) (c : Byte) : (s.answerSignal c).grid = s.grid := rfl
@[simp] theorem State.answerSignal_payIn (s : State) (c : Byte) : (s.answerSignal c).payIn = [] := rfl
@[simp] theorem State.answerSignal_payOut (s : State) (c : Byte) : (s.answerSignal c).payOut = s.payOut := rfl
@[simp] theorem State.answerSignal_response (s : State) (c : Byte) : (s.answerSignal c).response = some { sig := c, flags := flagsByte { s with errs := true }, rdata := 0#64 } := rfl
@[simp] theorem State.answerSignal_host (s : State) (c : Byte) : (s.answerSignal c).host = s.host := rfl

@[simp] theorem State.withGrid_params (s : State) (g : Memory) : (s.withGrid g).params = s.params := rfl
@[simp] theorem State.withGrid_height (s : State) (g : Memory) : (s.withGrid g).height = s.height := rfl
@[simp] theorem State.withGrid_width (s : State) (g : Memory) : (s.withGrid g).width = s.width := rfl
@[simp] theorem State.withGrid_channels (s : State) (g : Memory) : (s.withGrid g).channels = s.channels := rfl
@[simp] theorem State.withGrid_row (s : State) (g : Memory) : (s.withGrid g).row = s.row := rfl
@[simp] theorem State.withGrid_col (s : State) (g : Memory) : (s.withGrid g).col = s.col := rfl
@[simp] theorem State.withGrid_ch (s : State) (g : Memory) : (s.withGrid g).ch = s.ch := rfl
@[simp] theorem State.withGrid_k (s : State) (g : Memory) : (s.withGrid g).k = s.k := rfl
@[simp] theorem State.withGrid_valid (s : State) (g : Memory) : (s.withGrid g).valid = s.valid := rfl
@[simp] theorem State.withGrid_exh (s : State) (g : Memory) : (s.withGrid g).exh = s.exh := rfl
@[simp] theorem State.withGrid_errs (s : State) (g : Memory) : (s.withGrid g).errs = s.errs := rfl
@[simp] theorem State.withGrid_lastSig (s : State) (g : Memory) : (s.withGrid g).lastSig = s.lastSig := rfl
@[simp] theorem State.withGrid_grid (s : State) (g : Memory) : (s.withGrid g).grid = g := rfl
@[simp] theorem State.withGrid_payIn (s : State) (g : Memory) : (s.withGrid g).payIn = s.payIn := rfl
@[simp] theorem State.withGrid_payOut (s : State) (g : Memory) : (s.withGrid g).payOut = s.payOut := rfl
@[simp] theorem State.withGrid_response (s : State) (g : Memory) : (s.withGrid g).response = s.response := rfl
@[simp] theorem State.withGrid_host (s : State) (g : Memory) : (s.withGrid g).host = s.host := rfl

@[simp] theorem State.withPayOut_params (s : State) (p : List Byte) : (s.withPayOut p).params = s.params := rfl
@[simp] theorem State.withPayOut_height (s : State) (p : List Byte) : (s.withPayOut p).height = s.height := rfl
@[simp] theorem State.withPayOut_width (s : State) (p : List Byte) : (s.withPayOut p).width = s.width := rfl
@[simp] theorem State.withPayOut_channels (s : State) (p : List Byte) : (s.withPayOut p).channels = s.channels := rfl
@[simp] theorem State.withPayOut_row (s : State) (p : List Byte) : (s.withPayOut p).row = s.row := rfl
@[simp] theorem State.withPayOut_col (s : State) (p : List Byte) : (s.withPayOut p).col = s.col := rfl
@[simp] theorem State.withPayOut_ch (s : State) (p : List Byte) : (s.withPayOut p).ch = s.ch := rfl
@[simp] theorem State.withPayOut_k (s : State) (p : List Byte) : (s.withPayOut p).k = s.k := rfl
@[simp] theorem State.withPayOut_valid (s : State) (p : List Byte) : (s.withPayOut p).valid = s.valid := rfl
@[simp] theorem State.withPayOut_exh (s : State) (p : List Byte) : (s.withPayOut p).exh = s.exh := rfl
@[simp] theorem State.withPayOut_errs (s : State) (p : List Byte) : (s.withPayOut p).errs = s.errs := rfl
@[simp] theorem State.withPayOut_lastSig (s : State) (p : List Byte) : (s.withPayOut p).lastSig = s.lastSig := rfl
@[simp] theorem State.withPayOut_grid (s : State) (p : List Byte) : (s.withPayOut p).grid = s.grid := rfl
@[simp] theorem State.withPayOut_payIn (s : State) (p : List Byte) : (s.withPayOut p).payIn = s.payIn := rfl
@[simp] theorem State.withPayOut_payOut (s : State) (p : List Byte) : (s.withPayOut p).payOut = p := rfl
@[simp] theorem State.withPayOut_response (s : State) (p : List Byte) : (s.withPayOut p).response = s.response := rfl
@[simp] theorem State.withPayOut_host (s : State) (p : List Byte) : (s.withPayOut p).host = s.host := rfl

@[simp] theorem writePayOut_params (p : List Byte) (s : State) : (writePayOut p s).params = s.params := rfl
@[simp] theorem writePayOut_height (p : List Byte) (s : State) : (writePayOut p s).height = s.height := rfl
@[simp] theorem writePayOut_width (p : List Byte) (s : State) : (writePayOut p s).width = s.width := rfl
@[simp] theorem writePayOut_channels (p : List Byte) (s : State) : (writePayOut p s).channels = s.channels := rfl
@[simp] theorem writePayOut_row (p : List Byte) (s : State) : (writePayOut p s).row = s.row := rfl
@[simp] theorem writePayOut_col (p : List Byte) (s : State) : (writePayOut p s).col = s.col := rfl
@[simp] theorem writePayOut_ch (p : List Byte) (s : State) : (writePayOut p s).ch = s.ch := rfl
@[simp] theorem writePayOut_k (p : List Byte) (s : State) : (writePayOut p s).k = s.k := rfl
@[simp] theorem writePayOut_valid (p : List Byte) (s : State) : (writePayOut p s).valid = s.valid := rfl
@[simp] theorem writePayOut_exh (p : List Byte) (s : State) : (writePayOut p s).exh = s.exh := rfl
@[simp] theorem writePayOut_errs (p : List Byte) (s : State) : (writePayOut p s).errs = s.errs := rfl
@[simp] theorem writePayOut_lastSig (p : List Byte) (s : State) : (writePayOut p s).lastSig = s.lastSig := rfl
@[simp] theorem writePayOut_grid (p : List Byte) (s : State) : (writePayOut p s).grid = s.grid := rfl
@[simp] theorem writePayOut_payIn (p : List Byte) (s : State) : (writePayOut p s).payIn = s.payIn := rfl
@[simp] theorem writePayOut_payOut (p : List Byte) (s : State) : (writePayOut p s).payOut = p := rfl
@[simp] theorem writePayOut_response (p : List Byte) (s : State) : (writePayOut p s).response = s.response := rfl
@[simp] theorem writePayOut_host (p : List Byte) (s : State) : (writePayOut p s).host = s.host := rfl

/-- The model's end of a command is the end the claims write out. -/
theorem respond_eq_answerOk (d : Data) (s : State) : respond d s = s.answerOk d := rfl

theorem writePayOut_eq_withPayOut (p : List Byte) (s : State) : writePayOut p s = s.withPayOut p := rfl

theorem raiseSignal_eq_answerSignal (sig : Signal) (s : State) : raiseSignal sig s = s.answerSignal sig.code := rfl

/-- The capacity and the flags byte depend on their own fields only. -/
theorem capacity_congr {s t : State} (h : t.height = s.height) (w : t.width = s.width) (c : t.channels = s.channels) :
    t.capacity = s.capacity := by
  simp [State.capacity, h, w, c]

theorem flagsByte_congr {s t : State} (v : t.valid = s.valid) (x : t.exh = s.exh) (e : t.errs = s.errs) :
    flagsByte t = flagsByte s := by
  simp [flagsByte, v, x, e]

@[simp] theorem rewind_capacity (s : State) : (rewind s).capacity = s.capacity := rfl

@[simp] theorem atStream_capacity (s : State) (n : Nat) : (s.atStream n).capacity = s.capacity := rfl

@[simp] theorem withGrid_capacity (s : State) (g : Memory) : (s.withGrid g).capacity = s.capacity := rfl

@[simp] theorem withPayOut_capacity (s : State) (p : List Byte) : (s.withPayOut p).capacity = s.capacity := rfl

@[simp] theorem exhausted_capacity (s : State) : s.exhausted.capacity = s.capacity := rfl

end Sys2Proof.Machine
end

