-- ==== Sys2Proof/Laws/Cursor.lean ====
section
/-! SUPPORT. The arithmetic of slots and stream positions (40_cursor_walker.md R95), and what one `advance()` can do
(R90), said once. -/

namespace Sys2Proof.Machine

/-! ### Slots as mixed-radix numbers -/

theorem slot_lt {r c h H W D : Nat} (hr : r < H) (hc : c < W) (hh : h < D) : (r * W + c) * D + h < H * W * D := by
  have h1 : r * W + c + 1 ≤ H * W := by
    calc r * W + c + 1 ≤ r * W + W := by omega
      _ = (r + 1) * W := by ring
      _ ≤ H * W := Nat.mul_le_mul_right _ hr
  calc (r * W + c) * D + h < (r * W + c) * D + D := by omega
    _ = (r * W + c + 1) * D := by ring
    _ ≤ H * W * D := Nat.mul_le_mul_right _ h1

theorem slot_mod {r c h W D : Nat} (hh : h < D) : ((r * W + c) * D + h) % D = h := by
  rw [Nat.mul_comm, Nat.mul_add_mod, Nat.mod_eq_of_lt hh]

theorem slot_div {r c h W D : Nat} (hh : h < D) : ((r * W + c) * D + h) / D = r * W + c := by
  have hD : 0 < D := by omega
  rw [Nat.mul_comm, Nat.mul_add_div hD, Nat.div_eq_of_lt hh, Nat.add_zero]

theorem slot_col {r c h W D : Nat} (hc : c < W) (hh : h < D) : ((r * W + c) * D + h) / D % W = c := by
  rw [slot_div hh, Nat.mul_comm, Nat.mul_add_mod, Nat.mod_eq_of_lt hc]

theorem slot_row {r c h W D : Nat} (hc : c < W) (hh : h < D) : ((r * W + c) * D + h) / (D * W) = r := by
  have hW : 0 < W := by omega
  rw [← Nat.div_div_eq_div_mul, slot_div hh, Nat.mul_comm, Nat.mul_add_div hW, Nat.div_eq_of_lt hc, Nat.add_zero]

/-- The last slot is the one whose three counters are all at their ends. -/
theorem slot_last {r c h H W D : Nat} (hr : r + 1 = H) (hc : c + 1 = W) (hh : h + 1 = D) :
    (r * W + c) * D + h + 1 = H * W * D := by
  subst hr hc hh
  ring

/-! ### The cursor's position -/

theorem slotIndex_lt {s : State} (h : CursorInRange s) : s.slotIndex < s.capacity := slot_lt h.1 h.2.1 h.2.2

theorem capacity_pos {s : State} (h : CursorInRange s) : 0 < s.capacity := Nat.lt_of_le_of_lt (Nat.zero_le _) (slotIndex_lt h)

theorem streamPos_mod {s : State} (h : CursorInRange s) : s.streamPos % s.capacity = s.slotIndex := by
  rw [State.streamPos, Nat.mul_comm, Nat.mul_add_mod, Nat.mod_eq_of_lt (slotIndex_lt h)]

theorem streamPos_div {s : State} (h : CursorInRange s) : s.streamPos / s.capacity = s.k.toNat := by
  rw [State.streamPos, Nat.mul_comm, Nat.mul_add_div (capacity_pos h), Nat.div_eq_of_lt (slotIndex_lt h), Nat.add_zero]

theorem streamPos_lt {s : State} (h : CursorInRange s) : s.streamPos < 8 * s.capacity := by
  have hk := s.k.isLt
  have hs := slotIndex_lt h
  have : s.k.toNat * s.capacity ≤ 7 * s.capacity := Nat.mul_le_mul_right _ (by omega)
  rw [State.streamPos]
  omega

/-- A state is its own dimensions with the cursor at its stream position. -/
theorem atStream_streamPos {s : State} (h : CursorInRange s) (hx : s.exh = false) : s.atStream s.streamPos = s := by
  obtain ⟨hr, hc, hh⟩ := id h
  unfold State.atStream
  rw [streamPos_mod h, streamPos_div h, State.slotIndex, slot_mod hh, slot_col hc hh, slot_row hc hh]
  cases s
  simp_all

/-- Two positions of the same carrier: the second cursor is reached by writing its position over the first. -/
theorem atStream_eq {s t : State} (h : CursorInRange t) (hx : t.exh = false)
    (e : t = { s with row := t.row, col := t.col, ch := t.ch, k := t.k, exh := t.exh }) :
    t = s.atStream t.streamPos := by
  have ht := atStream_streamPos h hx
  rw [e] at ht ⊢
  exact ht.symm

/-- The cursor put at a position inside the traversal is in range. -/
theorem cursorInRange_atStream {s : State} {n : Nat} (hc : 0 < s.capacity) : CursorInRange (s.atStream n) := by
  have hW : 0 < s.width := Nat.pos_of_ne_zero fun e => by simp [State.capacity, capacityOf, e] at hc
  have hD : 0 < s.channels := Nat.pos_of_ne_zero fun e => by simp [State.capacity, capacityOf, e] at hc
  refine ⟨Nat.div_lt_of_lt_mul ?_, Nat.mod_lt _ hW, Nat.mod_lt _ hD⟩
  have e : s.capacity = s.channels * s.width * s.height := by rw [State.capacity, capacityOf]; ring
  exact e ▸ Nat.mod_lt n hc

theorem slotIndex_atStream (s : State) (n : Nat) : (s.atStream n).slotIndex = n % s.capacity := by
  simp only [State.slotIndex, State.atStream]
  rw [← Nat.div_div_eq_div_mul, Nat.div_add_mod', Nat.div_add_mod']

theorem k_atStream {s : State} {n : Nat} (hn : n < 8 * s.capacity) : (s.atStream n).k.toNat = n / s.capacity := by
  have hlt : n / s.capacity < 8 := Nat.div_lt_of_lt_mul (by omega)
  simp [State.atStream, Nat.mod_eq_of_lt hlt]

theorem streamPos_atStream {s : State} {n : Nat} (hn : n < 8 * s.capacity) : (s.atStream n).streamPos = n := by
  have hc : 0 < s.capacity := by omega
  rw [State.streamPos, k_atStream hn, slotIndex_atStream, atStream_capacity, Nat.div_add_mod']

theorem atStream_atStream (s : State) (m n : Nat) : (s.atStream m).atStream n = s.atStream n := rfl

theorem atStream_rewind (s : State) (n : Nat) : (rewind s).atStream n = s.atStream n := rfl

theorem exhausted_atStream (s : State) (n : Nat) : (s.atStream n).exhausted = s.exhausted := rfl

theorem rewind_eq_atStream (s : State) : rewind s = s.atStream 0 := by
  simp [rewind, State.atStream]

/-! ### What one advance can do -/

/-- The three ways `advance()` ends on a cursor in range that is not exhausted (R90): the next slot of the plane, the
first slot of the next plane, or exhaustion at the last slot of plane 7. -/
theorem advance_cases {s : State} (h : CursorInRange s) (hx : s.exh = false) :
    (∃ t, advance s = .go () t ∧ CursorInRange t ∧ t.slotIndex = s.slotIndex + 1 ∧ t.k = s.k ∧
      t = { s with row := t.row, col := t.col, ch := t.ch }) ∨
    (s.slotIndex + 1 = s.capacity ∧ s.k ≠ 7 ∧ advance s = .go () { s with row := 0, col := 0, ch := 0, k := s.k + 1 }) ∨
    (s.slotIndex + 1 = s.capacity ∧ s.k = 7 ∧ advance s = .raised .capacityExhausted s.exhausted) := by
  obtain ⟨hr, hc, hh⟩ := h
  unfold advance
  rw [if_neg (by simp [hx])]
  by_cases h1 : s.ch + 1 < s.channels
  · rw [if_pos h1]
    exact .inl ⟨_, rfl, ⟨hr, hc, h1⟩, rfl, rfl, rfl⟩
  rw [if_neg h1]
  have hch : s.ch + 1 = s.channels := by omega
  have lch : 0 < s.channels := by omega
  by_cases h2 : s.col + 1 < s.width
  · rw [if_pos h2]
    refine .inl ⟨_, rfl, ⟨hr, h2, lch⟩, ?_, rfl, rfl⟩
    simp only [State.slotIndex, ← hch]
    ring
  rw [if_neg h2]
  have hcol : s.col + 1 = s.width := by omega
  have lcol : 0 < s.width := by omega
  by_cases h3 : s.row + 1 < s.height
  · rw [if_pos h3]
    refine .inl ⟨_, rfl, ⟨h3, lcol, lch⟩, ?_, rfl, rfl⟩
    simp only [State.slotIndex, ← hch, ← hcol]
    ring
  rw [if_neg h3]
  have hrow : s.row + 1 = s.height := by omega
  have hlast : s.slotIndex + 1 = s.capacity := slot_last hrow hcol hch
  by_cases h4 : s.k = 7#3
  · rw [if_pos h4]
    exact .inr (.inr ⟨hlast, h4, by simp [State.exhausted, h4]⟩)
  · rw [if_neg h4]
    exact .inr (.inl ⟨hlast, h4, rfl⟩)

/-- An exhausted cursor raises at once (R94). -/
theorem advance_of_exh {s : State} (hx : s.exh = true) : advance s = .raised .capacityExhausted s := by
  simp [advance, hx]

/-- `advance()` reads and writes the cursor only, and raises nothing but `CapacityExhausted`, in any state. -/
theorem advance_frame (s : State) :
    (∃ t, advance s = .go () t ∧ t = { s with row := t.row, col := t.col, ch := t.ch, k := t.k }) ∨
    advance s = .raised .capacityExhausted s ∨
    advance s = .raised .capacityExhausted s.exhausted := by
  unfold advance
  split
  · exact .inr (.inl rfl)
  repeat' split
  all_goals first
    | exact .inl ⟨_, rfl, rfl⟩
    | (rename_i h; exact .inr (.inr (by simp [State.exhausted, h])))

end Sys2Proof.Machine
end

