-- ==== Sys2Proof/Laws/Encoding.lean ====
section
/-! SUPPORT. The fields of assembled words (30_encoding.md R70, R73, R74), and masking a word field by field. -/

namespace Sys2Proof

@[simp] theorem opField_assemble (op aux : Byte) (d : Data) : opField (assemble op aux d) = op := by
  apply BitVec.eq_of_getLsbD_eq
  intro i hi
  simp only [opField, assemble, BitVec.getLsbD_extractLsb', BitVec.getLsbD_append]
  have h1 : ¬ 72 + i < 64 := by omega
  have h2 : ¬ 72 + i - 64 < 8 := by omega
  have h3 : 72 + i - 64 - 8 = i := by omega
  simp [hi, h1, h2, h3]

@[simp] theorem auxField_assemble (op aux : Byte) (d : Data) : auxField (assemble op aux d) = aux := by
  apply BitVec.eq_of_getLsbD_eq
  intro i hi
  simp only [auxField, assemble, BitVec.getLsbD_extractLsb', BitVec.getLsbD_append]
  have h1 : ¬ 64 + i < 64 := by omega
  have h2 : 64 + i - 64 = i := by omega
  simp [hi, h1, h2]

@[simp] theorem dataField_assemble (op aux : Byte) (d : Data) : dataField (assemble op aux d) = d := by
  apply BitVec.eq_of_getLsbD_eq
  intro i hi
  simp only [dataField, assemble, BitVec.getLsbD_extractLsb', BitVec.getLsbD_append]
  simp [hi]

@[simp] theorem assemble_fields (w : CommandWord) : assemble (opField w) (auxField w) (dataField w) = w := by
  apply BitVec.eq_of_getLsbD_eq
  intro i hi
  simp only [assemble, opField, auxField, dataField, BitVec.getLsbD_append, BitVec.getLsbD_extractLsb']
  by_cases h1 : i < 64
  · simp [h1]
  · by_cases h2 : i - 64 < 8
    · have h3 : 64 + (i - 64) = i := by omega
      simp [h1, h2, h3]
    · have h3 : 72 + (i - 64 - 8) = i := by omega
      have h4 : i - 64 - 8 < 8 := by omega
      simp [h1, h2, h3, h4]

theorem decodeCommand_assemble (p : Params) (op aux : Byte) (d : Data) :
    decodeCommand p (assemble op aux d) = decodeFields p op aux d := by
  rw [decodeCommand, opField_assemble, auxField_assemble, dataField_assemble]

theorem assemble_injective {op aux op' aux' : Byte} {d d' : Data} (h : assemble op aux d = assemble op' aux' d') :
    op = op' ∧ aux = aux' ∧ d = d' :=
  ⟨by simpa using congrArg opField h, by simpa using congrArg auxField h, by simpa using congrArg dataField h⟩

theorem assemble_and (op aux op' aux' : Byte) (d d' : Data) :
    assemble op aux d &&& assemble op' aux' d' = assemble (op &&& op') (aux &&& aux') (d &&& d') := by
  apply BitVec.eq_of_getLsbD_eq
  intro i _
  simp only [assemble, BitVec.getLsbD_and, BitVec.getLsbD_append]
  by_cases h1 : i < 64
  · simp [h1]
  · by_cases h2 : i - 64 < 8 <;> simp [h1, h2]

/-! ### INIT's dimension fields, at any parameters -/

theorem toNat_channelsField (p : Params) (d : Data) : channelsField p d = d.toNat % 2 ^ p.chBits := by
  simp [channelsField]

theorem toNat_widthField (p : Params) (d : Data) : widthField p d = d.toNat / 2 ^ p.chBits % 2 ^ p.colBits := by
  simp [widthField, Nat.shiftRight_eq_div_pow]

theorem toNat_heightField (p : Params) (d : Data) :
    heightField p d = d.toNat / 2 ^ (p.chBits + p.colBits) % 2 ^ p.rowBits := by
  simp [heightField, Nat.shiftRight_eq_div_pow]

theorem dimensionsFit_iff {p : Params} {h w c : Nat} :
    dimensionsFit p h w c = true ↔ h < 2 ^ p.rowBits ∧ w < 2 ^ p.colBits ∧ c < 2 ^ p.chBits := decide_eq_true_iff

/-- Three dimensions that fit make a number of at most `CAP_BITS` bits. -/
theorem dimensions_lt {p : Params} {h w c : Nat} (f : dimensionsFit p h w c = true) :
    (h * 2 ^ p.colBits + w) * 2 ^ p.chBits + c < 2 ^ p.capBits := by
  obtain ⟨hh, hw, hc⟩ := dimensionsFit_iff.1 f
  have h1 : h * 2 ^ p.colBits + w + 1 ≤ 2 ^ p.rowBits * 2 ^ p.colBits :=
    calc h * 2 ^ p.colBits + w + 1 ≤ (h + 1) * 2 ^ p.colBits := by rw [Nat.add_mul]; omega
      _ ≤ 2 ^ p.rowBits * 2 ^ p.colBits := Nat.mul_le_mul_right _ hh
  calc (h * 2 ^ p.colBits + w) * 2 ^ p.chBits + c < (h * 2 ^ p.colBits + w + 1) * 2 ^ p.chBits := by
        rw [Nat.add_mul _ 1]; omega
    _ ≤ 2 ^ p.rowBits * 2 ^ p.colBits * 2 ^ p.chBits := Nat.mul_le_mul_right _ h1
    _ = 2 ^ p.capBits := by rw [Params.capBits, Nat.pow_add, Nat.pow_add]

/-- No parameters make the capacity product wider than `data` (R9). -/
theorem two_pow_capBits_le (p : Params) : 2 ^ p.capBits ≤ 2 ^ 64 := Nat.pow_le_pow_right (by decide) p.sum_le

theorem toNat_dimensionData {p : Params} {h w c : Nat} (f : dimensionsFit p h w c = true) :
    (dimensionData p h w c).toNat = (h * 2 ^ p.colBits + w) * 2 ^ p.chBits + c := by
  rw [dimensionData, BitVec.toNat_ofNat, Nat.mod_eq_of_lt (Nat.lt_of_lt_of_le (dimensions_lt f) (two_pow_capBits_le p))]

theorem heightField_dimensionData {p : Params} {h w c : Nat} (f : dimensionsFit p h w c = true) :
    heightField p (dimensionData p h w c) = h := by
  obtain ⟨hh, hw, hc⟩ := dimensionsFit_iff.1 f
  rw [toNat_heightField, toNat_dimensionData f, Nat.pow_add, ← Nat.div_div_eq_div_mul, Nat.mul_comm (_ + w),
    Nat.mul_add_div (Nat.two_pow_pos _), Nat.div_eq_of_lt hc, Nat.add_zero, Nat.mul_comm h,
    Nat.mul_add_div (Nat.two_pow_pos _), Nat.div_eq_of_lt hw, Nat.add_zero, Nat.mod_eq_of_lt hh]

theorem widthField_dimensionData {p : Params} {h w c : Nat} (f : dimensionsFit p h w c = true) :
    widthField p (dimensionData p h w c) = w := by
  obtain ⟨-, hw, hc⟩ := dimensionsFit_iff.1 f
  rw [toNat_widthField, toNat_dimensionData f, Nat.mul_comm (_ + w), Nat.mul_add_div (Nat.two_pow_pos _),
    Nat.div_eq_of_lt hc, Nat.add_zero, Nat.mul_comm h, Nat.mul_add_mod, Nat.mod_eq_of_lt hw]

theorem channelsField_dimensionData {p : Params} {h w c : Nat} (f : dimensionsFit p h w c = true) :
    channelsField p (dimensionData p h w c) = c := by
  obtain ⟨-, -, hc⟩ := dimensionsFit_iff.1 f
  rw [toNat_channelsField, toNat_dimensionData f, Nat.mul_comm (_ + w), Nat.mul_add_mod, Nat.mod_eq_of_lt hc]

/-- The fields of any `data` fit. -/
theorem dimensionsFit_fields (p : Params) (d : Data) :
    dimensionsFit p (heightField p d) (widthField p d) (channelsField p d) = true :=
  dimensionsFit_iff.2 ⟨BitVec.isLt _, BitVec.isLt _, BitVec.isLt _⟩

/-- A `data` with nothing above its three fields is those fields. -/
theorem dimensionData_fields {p : Params} {d : Data} (h : noStrayDimensionBit p d = true) :
    dimensionData p (heightField p d) (widthField p d) (channelsField p d) = d := by
  apply BitVec.eq_of_toNat_eq
  have hd : d.toNat < 2 ^ p.capBits := of_decide_eq_true h
  rw [toNat_dimensionData (dimensionsFit_fields p d), toNat_heightField, toNat_widthField, toNat_channelsField,
    Nat.mod_eq_of_lt (Nat.div_lt_of_lt_mul ?_), Nat.pow_add, ← Nat.div_div_eq_div_mul, Nat.div_add_mod',
    Nat.div_add_mod']
  rw [← Nat.pow_add]
  have e : p.chBits + p.colBits + p.rowBits = p.capBits := by rw [Params.capBits]; omega
  rwa [e]

theorem regOfIndex_indexOfReg (r : RegName) : regOfIndex (indexOfReg r) = some r := by
  cases r <;> decide

theorem indexOfReg_of_regOfIndex {idx : Byte} {r : RegName} (h : regOfIndex idx = some r) : indexOfReg r = idx := by
  unfold regOfIndex at h
  repeat (split at h; · cases h; subst_vars; rfl)
  cases h

end Sys2Proof
end

