-- ==== Sys2Proof/Laws/Memory.lean ====
section
/-! SUPPORT. The laws of the GRID list: read after write, and that a write keeps the canonical form (20_memory.md R52,
R53). -/

namespace Sys2Proof.Machine.Memory

theorem lookup_write_self (m : Memory) (a : Nat) (v : Byte) : lookup (write m a v) a = some v := by
  induction m with
  | nil => simp [write, lookup]
  | cons p rest ih =>
    obtain ⟨b, u⟩ := p
    unfold write
    split
    · simp [lookup]
    · split
      · simp [lookup]
      · rename_i hne
        simp [lookup, hne, ih]

theorem lookup_write_of_ne (m : Memory) {a x : Nat} (v : Byte) (hx : x ≠ a) :
    lookup (write m a v) x = lookup m x := by
  induction m with
  | nil => simp [write, lookup, hx]
  | cons p rest ih =>
    obtain ⟨b, u⟩ := p
    unfold write
    split
    · simp [lookup, hx]
    · split
      · subst_vars
        simp [lookup, hx]
      · simp [lookup, ih]

/-- A write replaces its own cell and no other (R53). -/
theorem read_write (m : Memory) (a : Nat) (v : Byte) (x : Nat) :
    read (write m a v) x = if x = a then v else read m x := by
  unfold read
  split
  · subst_vars
    simp [lookup_write_self]
  · rename_i hx
    simp [lookup_write_of_ne m v hx]

theorem above_write {m : Memory} {c a : Nat} {v : Byte} (h : above c m = true) (hc : c < a) :
    above c (write m a v) = true := by
  induction m with
  | nil => simp [write, above, hc]
  | cons p rest ih =>
    obtain ⟨b, u⟩ := p
    simp only [above, Bool.and_eq_true, decide_eq_true_eq] at h
    unfold write
    split
    · simp [above, hc, h.1, h.2]
    · split
      · simp [above, hc, h.2]
      · simp [above, h.1, ih h.2]

theorem above_mono {m : Memory} {a b : Nat} (h : above b m = true) (hab : a < b) : above a m = true := by
  induction m with
  | nil => rfl
  | cons p rest ih =>
    simp only [above, Bool.and_eq_true, decide_eq_true_eq] at h ⊢
    exact ⟨by omega, ih h.2⟩

/-- A write keeps the canonical form. -/
theorem wf_write {m : Memory} (h : wf m = true) (a : Nat) (v : Byte) : wf (write m a v) = true := by
  induction m with
  | nil => rfl
  | cons p rest ih =>
    obtain ⟨b, u⟩ := p
    simp only [wf, Bool.and_eq_true] at h
    unfold write
    split
    · rename_i hab
      simp [wf, above, hab, h.1, h.2, above_mono h.1 hab]
    · split
      · rename_i hab
        simp [wf, hab, h.1, h.2]
      · have hba : b < a := by omega
        simp [wf, ih h.2, above_write h.1 hba]

/-- In canonical form a list has no entry for a key below all its keys. -/
theorem lookup_of_above {m : Memory} {a : Nat} (h : above a m = true) : lookup m a = none := by
  induction m with
  | nil => rfl
  | cons p rest ih =>
    obtain ⟨b, u⟩ := p
    simp only [above, Bool.and_eq_true, decide_eq_true_eq] at h
    have : a ≠ b := by omega
    simp [lookup, this, ih h.2]

/-- In canonical form, lists that store the same bytes are the same list. -/
theorem eq_of_lookup : ∀ {m n : Memory}, wf m = true → wf n = true → (∀ a, lookup m a = lookup n a) → m = n
  | [], [], _, _, _ => rfl
  | [], (b, u) :: _, _, _, h => by simpa [lookup] using h b
  | (b, u) :: _, [], _, _, h => by simpa [lookup] using h b
  | (b, u) :: m, (c, v) :: n, hm, hn, h => by
    simp only [wf, Bool.and_eq_true] at hm hn
    have hbc : b = c := by
      rcases Nat.lt_trichotomy b c with lt | rfl | lt
      · have hb := h b
        have hne : b ≠ c := by omega
        simp [lookup, hne, lookup_of_above (above_mono hn.1 lt)] at hb
      · rfl
      · have hc := h c
        have hne : c ≠ b := by omega
        simp [lookup, hne, lookup_of_above (above_mono hm.1 lt)] at hc
    subst hbc
    have huv : u = v := by simpa [lookup] using h b
    have hrest : m = n := eq_of_lookup hm.2 hn.2 fun a => by
      by_cases ha : a = b
      · subst ha
        rw [lookup_of_above hm.1, lookup_of_above hn.1]
      · simpa [lookup, ha] using h a
    rw [huv, hrest]

end Sys2Proof.Machine.Memory
end

