-- ==== Sys2Proof/Laws/Ops.lean ====
section
/-! SUPPORT. What the GRID accesses, the bit writer and the bit reader can do (20_memory.md R51 to R54,
41_mask_bit_io.md R103, R107), one lemma each on a cursor in range and one each on any state. -/

namespace Sys2Proof.Machine

/-- On a cursor in range the address of its cell is its slot index. -/
theorem gridAddress_of_inRange {s : State} (h : CursorInRange s) :
    gridAddress s s.row s.col s.ch = some s.slotIndex := if_pos h

/-- A fault of the grid needs a triple outside the dimensions (R51). -/
theorem gridAddress_eq_none {s : State} {r c h : Nat} :
    gridAddress s r c h = none ↔ ¬ (r < s.height ∧ c < s.width ∧ h < s.channels) := by
  unfold gridAddress
  split <;> simp_all

theorem gridRead_of_inRange {s : State} (h : CursorInRange s) :
    gridRead s.row s.col s.ch s = .go (Memory.read s.grid s.slotIndex) s := by
  simp [gridRead, gridAddress_of_inRange h]

theorem gridWrite_of_inRange {s : State} (h : CursorInRange s) (v : Byte) :
    gridWrite s.row s.col s.ch v s = .go () { s with grid := Memory.write s.grid s.slotIndex v } := by
  simp [gridWrite, gridAddress_of_inRange h]

/-- The grid after the bit writer has written `b` under the cursor. -/
def wroteBit (s : State) (b : Bool) : Memory :=
  Memory.write s.grid s.slotIndex (putBit (Memory.read s.grid s.slotIndex) s.k b)

theorem bitWrite_of_exh {s : State} (hx : s.exh = true) (b : Bool) : bitWrite b s = .raised .capacityExhausted s := by
  simp [bitWrite, hx]

theorem bitRead_of_exh {s : State} (hx : s.exh = true) : bitRead s = .raised .capacityExhausted s := by
  simp [bitRead, hx]

/-- The bit writer on a cursor in range: one cell updated, then one advance (R103). -/
theorem bitWrite_of_inRange {s : State} (h : CursorInRange s) (hx : s.exh = false) (b : Bool) :
    bitWrite b s = advance { s with grid := wroteBit s b } := by
  rw [bitWrite, if_neg (by simp [hx]), gridRead_of_inRange h, andThen_go, gridWrite_of_inRange h, andThen_go]
  rfl

/-- The bit reader on a cursor in range: one cell read, then one advance (R107). -/
theorem bitRead_of_inRange {s : State} (h : CursorInRange s) (hx : s.exh = false) :
    bitRead s = (advance s).andThen fun _ t => .go (getBit (Memory.read s.grid s.slotIndex) s.k) t := by
  rw [bitRead, if_neg (by simp [hx]), gridRead_of_inRange h, andThen_go]

/-- The bit writer in any state that does not stop it: `CapacityExhausted` at entry, or one cell at the address of the
cursor updated and then an advance. -/
theorem bitWrite_cases (b : Bool) (s : State) :
    bitWrite b s = .raised .capacityExhausted s ∨ bitWrite b s = .fault .badGridAddress ∨
    ∃ a, gridAddress s s.row s.col s.ch = some a ∧ s.exh = false ∧
      bitWrite b s = advance { s with grid := Memory.write s.grid a (putBit (Memory.read s.grid a) s.k b) } := by
  unfold bitWrite
  split
  · exact .inl rfl
  · rename_i hx
    cases ha : gridAddress s s.row s.col s.ch with
    | none => exact .inr (.inl (by simp [gridRead, ha]))
    | some a => exact .inr (.inr ⟨a, rfl, by simpa using hx, by simp [gridRead, gridWrite, ha]⟩)

/-- The bit reader in any state that does not stop it. -/
theorem bitRead_cases (s : State) :
    bitRead s = .raised .capacityExhausted s ∨ bitRead s = .fault .badGridAddress ∨
    ∃ a, gridAddress s s.row s.col s.ch = some a ∧ s.exh = false ∧
      bitRead s = (advance s).andThen fun _ t => .go (getBit (Memory.read s.grid a) s.k) t := by
  unfold bitRead
  split
  · exact .inl rfl
  · rename_i hx
    cases ha : gridAddress s s.row s.col s.ch with
    | none => exact .inr (.inl (by simp [gridRead, ha]))
    | some a => exact .inr (.inr ⟨a, rfl, by simpa using hx, by simp [gridRead, ha]⟩)

/-- What a written bit does to what the cells read. -/
theorem read_wroteBit (s : State) (b : Bool) (a : Nat) :
    Memory.read (wroteBit s b) a =
      if a = s.slotIndex then putBit (Memory.read s.grid s.slotIndex) s.k b else Memory.read s.grid a :=
  Memory.read_write _ _ _ _

end Sys2Proof.Machine
end

