-- ==== Sys2Proof/Laws/Frame.lean ====
section
/-! SUPPORT. What the operations leave unchanged, in any state: `advance`, the bit reader and the read loops touch the
cursor only, the bit writer and the write loops the cursor and the grid, and none raises anything but
`CapacityExhausted`. -/

namespace Sys2Proof.Machine

/-- A piece of pseudocode that goes on or raises `CapacityExhausted`, in a state with this property (or stops at an
address that does not exist). -/
def Flow.Ends {α : Type} (x : Flow α) (P : State → Prop) : Prop :=
  match x with
  | .go _ t => P t
  | .raised sig t => sig = .capacityExhausted ∧ P t
  | .fault _ => True

theorem Flow.Ends.andThen {α β : Type} {x : Flow α} {f : α → State → Flow β} {P : State → Prop} (h : x.Ends P)
    (hf : ∀ a s, P s → (f a s).Ends P) : (x.andThen f).Ends P := by
  cases x with
  | go a s => exact hf a s h
  | raised _ _ => exact h
  | fault _ => trivial

theorem Flow.Ends.mono {α : Type} {x : Flow α} {P Q : State → Prop} (h : x.Ends P) (hpq : ∀ t, P t → Q t) :
    x.Ends Q := by
  cases x with
  | go a s => exact hpq _ h
  | raised _ _ => exact ⟨h.1, hpq _ h.2⟩
  | fault _ => trivial

/-- The cursor and the grid apart, the same state. -/
structure CursorAndGrid (s t : State) : Prop where
  params : t.params = s.params
  height : t.height = s.height
  width : t.width = s.width
  channels : t.channels = s.channels
  valid : t.valid = s.valid
  errs : t.errs = s.errs
  lastSig : t.lastSig = s.lastSig
  payIn : t.payIn = s.payIn
  payOut : t.payOut = s.payOut
  response : t.response = s.response
  host : t.host = s.host

/-- The cursor apart, the same state. -/
structure CursorOnly (s t : State) : Prop extends CursorAndGrid s t where
  grid : t.grid = s.grid

theorem CursorAndGrid.refl (s : State) : CursorAndGrid s s :=
  ⟨rfl, rfl, rfl, rfl, rfl, rfl, rfl, rfl, rfl, rfl, rfl⟩

theorem CursorAndGrid.trans {s t u : State} (h : CursorAndGrid s t) (k : CursorAndGrid t u) : CursorAndGrid s u :=
  ⟨k.params.trans h.params, k.height.trans h.height, k.width.trans h.width, k.channels.trans h.channels, k.valid.trans h.valid,
    k.errs.trans h.errs, k.lastSig.trans h.lastSig, k.payIn.trans h.payIn, k.payOut.trans h.payOut, k.response.trans h.response,
    k.host.trans h.host⟩

theorem CursorOnly.refl (s : State) : CursorOnly s s := ⟨CursorAndGrid.refl s, rfl⟩

theorem CursorOnly.trans {s t u : State} (h : CursorOnly s t) (k : CursorOnly t u) : CursorOnly s u :=
  ⟨h.toCursorAndGrid.trans k.toCursorAndGrid, k.grid.trans h.grid⟩

theorem cursorOnly_rewind (s : State) : CursorOnly s (rewind s) :=
  ⟨⟨rfl, rfl, rfl, rfl, rfl, rfl, rfl, rfl, rfl, rfl, rfl⟩, rfl⟩

theorem advance_ends (s : State) : (advance s).Ends (CursorOnly s) := by
  rcases advance_frame s with ⟨t, h, e⟩ | h | h
  · rw [h]
    rw [Flow.Ends, e]
    exact ⟨⟨rfl, rfl, rfl, rfl, rfl, rfl, rfl, rfl, rfl, rfl, rfl⟩, rfl⟩
  · rw [h]
    exact ⟨rfl, CursorOnly.refl s⟩
  · rw [h]
    exact ⟨rfl, ⟨⟨rfl, rfl, rfl, rfl, rfl, rfl, rfl, rfl, rfl, rfl, rfl⟩, rfl⟩⟩

theorem bitRead_ends (s : State) : (bitRead s).Ends (CursorOnly s) := by
  rcases bitRead_cases s with h | h | ⟨a, -, -, h⟩ <;> rw [h]
  · exact ⟨rfl, CursorOnly.refl s⟩
  · trivial
  · exact (advance_ends s).andThen fun _ _ ht => ht

theorem bitWrite_ends (b : Bool) (s : State) : (bitWrite b s).Ends (CursorAndGrid s) := by
  rcases bitWrite_cases b s with h | h | ⟨a, -, -, h⟩ <;> rw [h]
  · exact ⟨rfl, CursorAndGrid.refl s⟩
  · trivial
  · exact (advance_ends _).mono fun t ht =>
      ⟨ht.params, ht.height, ht.width, ht.channels, ht.valid, ht.errs, ht.lastSig, ht.payIn, ht.payOut, ht.response, ht.host⟩

theorem bitReads_ends (n : Nat) (s : State) : (bitReads n s).Ends (CursorOnly s) := by
  induction n generalizing s with
  | zero => exact CursorOnly.refl s
  | succ n ih =>
    exact (bitRead_ends s).andThen fun _ t ht =>
      ((ih t).mono fun _ hu => ht.trans hu).andThen fun _ _ hu => hu

theorem readBytes_ends (n : Nat) (s : State) : (readBytes n s).Ends (CursorOnly s) := by
  induction n generalizing s with
  | zero => exact CursorOnly.refl s
  | succ n ih =>
    exact (bitReads_ends _ s).andThen fun _ t ht =>
      ((ih t).mono fun _ hu => ht.trans hu).andThen fun _ _ hu => hu

theorem bitWrites_ends (bs : List Bool) (s : State) : (bitWrites bs s).Ends (CursorAndGrid s) := by
  induction bs generalizing s with
  | nil => exact CursorAndGrid.refl s
  | cons b bs ih => exact (bitWrite_ends b s).andThen fun _ t ht => (ih t).mono fun _ hu => ht.trans hu

/-- A byte always has eight digits: the payload loop raises no `ValueTooLarge` (42_converters.md R118). -/
theorem writeInteger_byte (v : Byte) (s : State) : writeInteger v.toNat Config.byteBits (by decide) s = bitWrites (digitsOf v.toNat 8) s := by
  have hv := v.isLt
  rw [writeInteger, toBits, if_neg (by simp only [Config.byteBits]; omega)]

theorem writeBytes_ends (vs : List Byte) (s : State) : (writeBytes vs s).Ends (CursorAndGrid s) := by
  induction vs generalizing s with
  | nil => exact CursorAndGrid.refl s
  | cons v vs ih =>
    rw [writeBytes, writeInteger_byte]
    exact (bitWrites_ends _ s).andThen fun _ t ht => (ih t).mono fun _ hu => ht.trans hu

end Sys2Proof.Machine
end

