-- ==== Sys2Proof/Laws/PerInstr.lean ====
section
/-! SUPPORT. Per-instruction family `EncodesIntoItsRow`: a command encoded at the default parameters selects the row of the mask and match table
(30_encoding.md R81) that carries its mnemonic. One lemma per constructor. -/

namespace Sys2Proof.Laws.EncodesIntoItsRow

/-- The row of the table with this command's mnemonic is selected by the command's word. -/
def Statement (i : Instr) : Prop := ∃ r ∈ opcodeTable, r.mnemonic = i.mnemonic ∧ r.selects (encodeCommand .defaults i) = true

/-- A word selects a row when each of its fields, masked, is the row's. -/
theorem selects_of_fields {w : CommandWord} {r : OpcodeRow}
    (h1 : opField w &&& opField r.mask = opField r.pattern)
    (h2 : auxField w &&& auxField r.mask = auxField r.pattern)
    (h3 : dataField w &&& dataField r.mask = dataField r.pattern) : r.selects w = true := by
  rw [OpcodeRow.selects, decide_eq_true_iff, ← assemble_fields w, ← assemble_fields r.mask, assemble_and, h1, h2, h3,
    assemble_fields]

/-- A field that a row leaves free is masked away. -/
theorem and_of_free {n : Nat} (x : BitVec n) {m p : BitVec n} (hm : m = 0#n) (hp : p = 0#n) : x &&& m = p := by
  rw [hm, hp, BitVec.and_zero]

theorem init (h w c : Nat) : Statement (.init h w c) :=
  ⟨⟨"INIT", 0x01000000000000000000#80, 0xFFFF0000000000000000#80⟩, by decide, rfl,
    selects_of_fields (by rw [encodeCommand, opField_assemble]; rfl) (by rw [encodeCommand, auxField_assemble]; rfl)
      (and_of_free _ rfl rfl)⟩

theorem adv : Statement .adv :=
  ⟨⟨"ADV", 0x02000000000000000000#80, 0xFFFFFFFFFFFFFFFFFFFF#80⟩, by decide, rfl, by decide⟩

theorem wbit (b : Bool) : Statement (.wbit b) :=
  ⟨⟨"WBIT", 0x03000000000000000000#80, 0xFFFEFFFFFFFFFFFFFFFF#80⟩, by decide, rfl, by revert b; decide⟩

theorem rbit : Statement .rbit :=
  ⟨⟨"RBIT", 0x04000000000000000000#80, 0xFFFFFFFFFFFFFFFFFFFF#80⟩, by decide, rfl, by decide⟩

theorem mask (k : BitVec 3) : Statement (.mask k) :=
  ⟨⟨"MASK", 0x05000000000000000000#80, 0xFFF8FFFFFFFFFFFFFFFF#80⟩, by decide, rfl, by revert k; decide⟩

theorem tobits (width : Byte) (value : Data) : Statement (.tobits width value) :=
  ⟨⟨"TOBITS", 0x06000000000000000000#80, 0xFF000000000000000000#80⟩, by decide, rfl,
    selects_of_fields (by rw [encodeCommand, opField_assemble]; rfl) (and_of_free _ rfl rfl) (and_of_free _ rfl rfl)⟩

theorem frombits (n : Byte) (digits : Data) : Statement (.frombits n digits) :=
  ⟨⟨"FROMBITS", 0x07000000000000000000#80, 0xFF000000000000000000#80⟩, by decide, rfl,
    selects_of_fields (by rw [encodeCommand, opField_assemble]; rfl) (and_of_free _ rfl rfl) (and_of_free _ rfl rfl)⟩

theorem encode (len : Data) : Statement (.encode len) :=
  ⟨⟨"ENCODE", 0x08000000000000000000#80, 0xFFFF0000000000000000#80⟩, by decide, rfl,
    selects_of_fields (by rw [encodeCommand, opField_assemble]; rfl) (by rw [encodeCommand, auxField_assemble]; rfl)
      (and_of_free _ rfl rfl)⟩

theorem decode : Statement .decode :=
  ⟨⟨"DECODE", 0x09000000000000000000#80, 0xFFFFFFFFFFFFFFFFFFFF#80⟩, by decide, rfl, by decide⟩

theorem rdreg (r : RegName) : Statement (.rdreg r) :=
  ⟨⟨"RDREG", 0x0A000000000000000000#80, 0xFF00FFFFFFFFFFFFFFFF#80⟩, by decide, rfl, by cases r <;> decide⟩

end Sys2Proof.Laws.EncodesIntoItsRow
end

