-- ==== Sys2Proof/Machine/Assembler.lean ====
section
/-! DEFINITION. The written form of commands and responses (30_encoding.md R83), with numbers in decimal (log 13). -/

namespace Sys2Proof.Machine

/-- A register's name as R35 writes it. -/
def regText : RegName → String
  | .status => "STATUS"
  | .height => "HEIGHT"
  | .width => "WIDTH"
  | .channels => "CHANNELS"
  | .row => "ROW"
  | .col => "COL"
  | .ch => "CH"
  | .k => "K"
  | .setMask => "SETMASK"
  | .clrMask => "CLRMASK"
  | .capacity => "CAPACITY"

/-- A digit as `0` or `1`. -/
def digitText (b : Bool) : String := if b then "1" else "0"

/-- Operands separated by commas (R83). -/
def commaText : List String → String
  | [] => ""
  | [a] => a
  | a :: b :: rest => a ++ ", " ++ commaText (b :: rest)

/-- The operands of a command; ENCODE's is its payload (R83). -/
def operandText (payIn : List Byte) : Instr → List String
  | .init h w c => [Nat.repr h, Nat.repr w, Nat.repr c]
  | .adv => []
  | .wbit b => [digitText b]
  | .rbit => []
  | .mask k => [Nat.repr k.toNat]
  | .tobits width value => [Nat.repr value.toNat, Nat.repr width.toNat]
  | .frombits n digits => [((unpack digits n.toNat).map digitText).foldl (· ++ ·) "", Nat.repr n.toNat]
  | .encode len => ["[" ++ commaText ((payload payIn len.toNat).map fun v => Nat.repr v.toNat) ++ "]"]
  | .decode => []
  | .rdreg r => [regText r]

/-- A command as it is written: the mnemonic, then the operands (R83). -/
def commandText (payIn : List Byte) (i : Instr) : String :=
  match operandText payIn i with
  | [] => i.mnemonic
  | ops => i.mnemonic ++ " " ++ commaText ops

/-- A signal's name (60_exceptions.md R161). -/
def Signal.text : Signal → String
  | .invalidCarrier => "InvalidCarrier"
  | .carrierTooSmall => "CarrierTooSmall"
  | .capacityExhausted => "CapacityExhausted"
  | .valueTooLarge => "ValueTooLarge"
  | .truncatedOrCorruptData => "TruncatedOrCorruptData"
  | .illegalCommand => "IllegalCommand"

/-- The signal with a code, none for `OK` and for the codes R161 says are never produced. -/
def signalOfCode (code : Byte) : Option Signal :=
  if code = 0x01#8 then some .invalidCarrier
  else if code = 0x02#8 then some .carrierTooSmall
  else if code = 0x03#8 then some .capacityExhausted
  else if code = 0x04#8 then some .valueTooLarge
  else if code = 0x05#8 then some .truncatedOrCorruptData
  else if code = 0x06#8 then some .illegalCommand
  else none

/-- A response as it is written: `-> SIG` or `-> OK value` (R83). -/
def responseText (r : Response) : String :=
  match signalOfCode r.sig with
  | some sig => "-> " ++ sig.text
  | none => "-> OK " ++ Nat.repr r.rdata.toNat

end Sys2Proof.Machine
end

