-- ==== Sys2Proof/Tests/Slice0.lean ====
section
/-! SUPPORT. The model's own tests: the checks of WellFormed, words written out from the spec's encodings, single commands
with the results of spec/95_test_vectors.md, and for every statement with hypotheses a witness that meets them. -/

namespace Sys2Proof.Tests

open Sys2Proof.Machine

/-! ### Helpers -/

/-- A carrier of `h`, `w`, `c` bound, cursor at the start, these cells in slot order. -/
def carrier (h w c : Nat) (cells : List Byte) : State :=
  { State.reset with height := h, width := w, channels := c, valid := true, grid := (List.range cells.length).zip cells }

/-- The cursor put at a place. -/
def putCursor (s : State) (row col ch : Nat) (k : BitVec 3) (exh : Bool) : State :=
  { s with row := row, col := col, ch := ch, k := k, exh := exh }

/-- The 2×2×3 carrier of the spec's examples, all cells 00. -/
def grid223 : State := carrier 2 2 3 (List.replicate 12 0x00#8)

/-- A machine of narrower registers: 8, 8 and 4 bits. -/
def narrow : Params where
  rowBits := 8
  colBits := 8
  chBits := 4
  row_pos := by decide
  col_pos := by decide
  ch_pos := by decide
  sum_le := by decide

/-- The cursor is at this place. -/
def atCursor (row col ch : Nat) (k : BitVec 3) (exh : Bool) (t : State) : Bool :=
  t.row == row && t.col == col && t.ch == ch && t.k == k && t.exh == exh

/-- The cells in slot order. -/
def cellsOf (t : State) : List Byte := t.grid.map Prod.snd

/-- An outcome is a next state in which this holds. -/
def gives (x : Host.Outcome State Fault Refusal) (p : State → Bool) : Bool :=
  match x with
  | .next t => p t
  | .fault _ => false
  | .refused _ => false

/-- The state an outcome leads to, `s` where it stops. -/
def after (x : Host.Outcome State Fault Refusal) (s : State) : State :=
  match x with
  | .next t => t
  | .fault _ => s
  | .refused _ => s

theorem next_of_gives {x : Host.Outcome State Fault Refusal} {p : State → Bool} (h : gives x p = true) (s : State) :
    x = .next (after x s) ∧ p (after x s) = true := by
  cases x with
  | next t => exact ⟨rfl, h⟩
  | fault _ => cases h
  | refused _ => cases h

/-- One step on a presented word answers this response word, and this holds of the state after it. -/
def answers (w : CommandWord) (s : State) (response : CommandWord) (p : State → Bool) : Bool :=
  gives (step { s with host := [.command w s.payIn] }) fun t => t.response.map Response.word == some response && p t

/-! ### WellFormed: an ill-formed term for each check -/

theorem test_wellFormed_tobits_width_0 : WellFormed .defaults (.tobits 0 0) = false := by decide
theorem test_wellFormed_tobits_width_65 : WellFormed .defaults (.tobits 65 0) = false := by decide
theorem test_wellFormed_frombits_n_0 : WellFormed .defaults (.frombits 0 0) = false := by decide
theorem test_wellFormed_frombits_n_65 : WellFormed .defaults (.frombits 65 0) = false := by decide
theorem test_wellFormed_frombits_stray_digit : WellFormed .defaults (.frombits 8 0x1A5) = false := by decide
theorem test_wellFormed_init_too_wide :
    WellFormed .defaults (.init 0x1000000 1 1) = false ∧ WellFormed .defaults (.init 1 0x1000000 1) = false ∧
    WellFormed .defaults (.init 1 1 0x10000) = false := by decide
theorem test_wellFormed_bounds :
    WellFormed .defaults (.tobits 1 0) = true ∧ WellFormed .defaults (.tobits 64 0) = true ∧ WellFormed .defaults (.frombits 8 0xA5) = true ∧
    WellFormed .defaults (.frombits 64 0xFFFFFFFFFFFFFFFF) = true := by decide

/-! ### Decoding, each constructor from a word of the spec (R91 to R155) -/

theorem test_decode_init : decodeCommand .defaults 0x0100000005000A010003#80 = .command (.init 5 0xA01 3) := by decide
theorem test_decode_adv : decodeCommand .defaults 0x02000000000000000000#80 = .command .adv := by decide
theorem test_decode_wbit : decodeCommand .defaults 0x03010000000000000000#80 = .command (.wbit true) := by decide
theorem test_decode_rbit : decodeCommand .defaults 0x04000000000000000000#80 = .command .rbit := by decide
theorem test_decode_mask : decodeCommand .defaults 0x05060000000000000000#80 = .command (.mask 6) := by decide
theorem test_decode_tobits : decodeCommand .defaults 0x06080000000000000005#80 = .command (.tobits 8 5) := by decide
theorem test_decode_frombits : decodeCommand .defaults 0x070800000000000000A5#80 = .command (.frombits 8 0xA5) := by decide
theorem test_decode_encode : decodeCommand .defaults 0x08000000000000000002#80 = .command (.encode 2) := by decide
theorem test_decode_decode : decodeCommand .defaults 0x09000000000000000000#80 = .command .decode := by decide
theorem test_decode_rdreg : decodeCommand .defaults 0x0A0A0000000000000000#80 = .command (.rdreg .capacity) := by decide

/-- The illegal words of 95_test_vectors.md, section 2.9. -/
theorem test_decode_illegal_words :
    [0x00000000000000000000#80, 0x0B000000000000000000#80, 0xFFFFFFFFFFFFFFFFFFFF#80, 0x02010000000000000000#80,
     0x04000000000000000001#80, 0x09000000000000000001#80, 0x03020000000000000000#80, 0x05080000000000000000#80,
     0x06000000000000000000#80, 0x06410000000000000000#80, 0x070800000000000001A5#80, 0x08010000000000000000#80,
     0x0A0B0000000000000000#80, 0x0A000000000000000001#80].all (fun w => decide (∃ e ∈ [DecodeError.reservedOp,
       .nonzeroField, .widthRange, .strayDigit, .registerIndex], decodeCommand .defaults w = .illegal e)) = true := by decide

/-- Ten bytes, most significant first (R70); nine are too few. -/
theorem test_decode_bytes :
    decodeBytes .defaults [0x01, 0x00, 0x00, 0x00, 0x02, 0x00, 0x00, 0x02, 0x00, 0x03, 0xEE] = (.command (.init 2 2 3), [0xEE]) ∧
    decodeBytes .defaults [0x02, 0x00, 0x00, 0x00, 0x00, 0x00, 0x00, 0x00, 0x00] =
      (.illegal .shortInput, [0x02, 0x00, 0x00, 0x00, 0x00, 0x00, 0x00, 0x00, 0x00]) := by decide

theorem test_table_word : decodeTableWord 80 0x01030000000000000000 = none ∧
    decodeTableWord 80 0x03010000000000000000 = some (.wbit true) := by decide

/-! ### One command each, from 95_test_vectors.md -/

/-- V-INIT-6: the largest dimensions, no overflow. -/
theorem test_init_largest :
    answers 0x0100FFFFFFFFFFFFFFFF#80 State.reset 0x0001FFFEFE000200FFFF#80 (atCursor 0 0 0 0 false) = true := by
  decide +kernel

/-- V-INIT-3 on a bound carrier: unbound, dimensions 0. -/
theorem test_init_zero_width :
    answers 0x01000000050000000003#80 grid223 0x01040000000000000000#80
      (fun t => !t.valid && t.height == 0 && t.width == 0 && t.channels == 0 && t.errs && t.lastSig == 1) = true := by
  decide +kernel

/-- V-ADV-4: the full wrap steps the plane. -/
theorem test_adv_full_wrap :
    answers 0x02000000000000000000#80 (putCursor grid223 1 1 2 0 false) 0x00010000000000000000#80
      (atCursor 0 0 0 1 false) = true := by decide +kernel

/-- V-ADV-5: the last slot of plane 7. -/
theorem test_adv_exhausts :
    answers 0x02000000000000000000#80 (putCursor grid223 1 1 2 7 false) 0x03070000000000000000#80
      (atCursor 0 0 0 7 true) = true := by decide +kernel

/-- V-WBIT-5: only bit 4 changes. -/
theorem test_wbit_sets_its_bit :
    answers 0x03010000000000000000#80 (putCursor (carrier 1 1 1 [0x05]) 0 0 0 4 false) 0x00010000000000000000#80
      (fun t => cellsOf t == [0x15] && atCursor 0 0 0 5 false t) = true := by decide +kernel

/-- V-WBIT-6: the bit is written, then the cursor is exhausted. -/
theorem test_wbit_last_slot :
    answers 0x03010000000000000000#80 (putCursor (carrier 1 1 1 [0x55]) 0 0 0 7 false) 0x03070000000000000000#80
      (fun t => cellsOf t == [0xD5] && atCursor 0 0 0 7 true t) = true := by decide +kernel

/-- V-RBIT-1. -/
theorem test_rbit :
    answers 0x04000000000000000000#80 (carrier 1 2 1 [0xA5, 0x3C]) 0x00010000000000000001#80
      (atCursor 0 1 0 0 false) = true := by decide +kernel

/-- V-RBIT-6: the bit read is 1, the answer is 0. -/
theorem test_rbit_last_slot :
    answers 0x04000000000000000000#80 (putCursor (carrier 1 1 1 [0x80]) 0 0 0 7 false) 0x03070000000000000000#80
      (fun t => cellsOf t == [0x80] && atCursor 0 0 0 7 true t) = true := by decide +kernel

/-- V-MASK, rows 3 and 7, in the reset state. -/
theorem test_mask :
    answers 0x05030000000000000000#80 State.reset 0x0000000000000000F708#80 (fun _ => true) = true ∧
    answers 0x05070000000000000000#80 State.reset 0x00000000000000007F80#80 (fun _ => true) = true := by decide +kernel

/-- V-MASK-ILL. -/
theorem test_mask_illegal :
    answers 0x05080000000000000000#80 State.reset 0x06040000000000000000#80 (fun _ => true) = true := by decide +kernel

/-- V-TOB-1, V-TOB-7. -/
theorem test_tobits :
    answers 0x06080000000000000005#80 State.reset 0x00000000000000000005#80 (fun _ => true) = true ∧
    answers 0x0640FFFFFFFFFFFFFFFF#80 State.reset 0x0000FFFFFFFFFFFFFFFF#80 (fun _ => true) = true := by decide +kernel

/-- V-TOB-3, V-TOB-6: ValueTooLarge. -/
theorem test_tobits_too_large :
    answers 0x06080000000000000100#80 State.reset 0x04040000000000000000#80 (fun _ => true) = true ∧
    answers 0x06010000000000000002#80 State.reset 0x04040000000000000000#80 (fun _ => true) = true := by decide +kernel

/-- The converters at function level (95_test_vectors.md, section 2.5). -/
theorem test_converter_functions :
    toBits 5 8 (by decide) = .digits [false, false, false, false, false, true, false, true] ∧
    fromBits [true, false, true, false, false, true, false, true] (by decide) = 165 ∧
    toBits 256 8 (by decide) = .raised .valueTooLarge := by
  decide

/-- V-FRB-1, V-FRB-3. -/
theorem test_frombits :
    answers 0x070800000000000000A5#80 State.reset 0x000000000000000000A5#80 (fun _ => true) = true ∧
    answers 0x07030000000000000005#80 State.reset 0x00000000000000000005#80 (fun _ => true) = true := by decide +kernel

/-- V-ENC-1 with 64 + 8 = 72 cells: the 1 of the length in cell 63, `A5` in cells 64 to 71. -/
theorem test_encode :
    answers 0x08000000000000000001#80 { carrier 4 6 3 (List.replicate 72 0xFF) with payIn := [0xA5] }
      0x00010000000000000001#80
      (fun t => cellsOf t == List.replicate 63 0xFE ++ [0xFF, 0xFF, 0xFE, 0xFF, 0xFE, 0xFE, 0xFF, 0xFE, 0xFF] &&
        atCursor 0 0 0 1 false t && t.payIn == []) = true := by decide +kernel

/-- V-ENC-2: refused before anything changes, the cursor kept. -/
theorem test_encode_too_small :
    answers 0x08000000000000000002#80
      { putCursor (carrier 4 6 3 (List.replicate 72 0xFF)) 1 2 0 3 false with payIn := [0xA5, 0x5A] }
      0x02050000000000000000#80
      (fun t => cellsOf t == List.replicate 72 0xFF && atCursor 1 2 0 3 false t) = true := by decide +kernel

/-- V-DEC-7: a frame across bit planes. -/
theorem test_decode_across_planes :
    answers 0x09000000000000000000#80 (carrier 2 5 1 [0x80, 0x80, 0, 0x40, 0x40, 0x40, 0, 0, 0, 0])
      0x00010000000000000001#80
      (fun t => t.payOut == [0xC3] && atCursor 0 2 0 7 false t) = true := by decide +kernel

/-- V-DEC-4: eight cells cannot hold even the length. -/
theorem test_decode_truncated :
    answers 0x09000000000000000000#80 (carrier 2 2 2 (List.replicate 8 0)) 0x05070000000000000000#80
      (fun t => t.payOut == [] && atCursor 0 0 0 7 true t) = true := by decide +kernel

/-- P2, steps 6 and 7: the payload a DECODE delivered still stands in PAYOUT after an RDREG. -/
theorem test_payOut_kept :
    answers 0x0A070000000000000000#80 { carrier 4 6 3 [] with k := 1, payOut := [0xA5] } 0x00010000000000000001#80
      (fun t => t.payOut == [0xA5]) = true := by decide +kernel

/-- V-RD-1: STATUS after V-ADV-5; LASTSIG stays 3. -/
theorem test_rdreg_status :
    answers 0x0A000000000000000000#80 { putCursor grid223 0 0 0 7 true with errs := true, lastSig := 3 }
      0x00070000000000000307#80 (fun t => t.lastSig == 3) = true := by decide +kernel

/-- V-RD-4: index 0x0B. -/
theorem test_rdreg_bad_index :
    answers 0x0A0B0000000000000000#80 State.reset 0x06040000000000000000#80 (fun t => t.lastSig == 6 && t.errs) = true := by
  decide +kernel

/-- R74 at narrower parameters: `height`, `width`, `channels` from the top down; a 1 above them is illegal. -/
theorem test_decode_init_narrow :
    decodeCommand narrow 0x010000000000000ABCD3#80 = .command (.init 0xAB 0xCD 3) ∧
    decodeCommand narrow 0x010000000000001ABCD3#80 = .illegal .nonzeroField := by decide

/-- R83: the examples of the written form. -/
theorem test_command_text :
    commandText [] (.init 10 10 3) = "INIT 10, 10, 3" ∧ commandText [72, 105] (.encode 2) = "ENCODE [72, 105]" ∧
    commandText [] (.rdreg .clrMask) = "RDREG CLRMASK" := by decide +kernel

/-- A word placed by withFetchWord runs as the next step, from reset. -/
theorem test_withFetchWord :
    gives (step (State.reset.withFetchWord 80 0x05030000000000000000)) (fun t => t.response.isSome && t.host == []) = true := by
  decide +kernel

/-! ### Witnesses: for each statement with hypotheses a state and operands that meet them -/

/-- A state in which nothing but the host's list differs from `s`. -/
def withMoves (s : State) (moves : List HostMove) : State := { s with host := moves }

/-- The invariant holds at a bound carrier whose last command ended `OK`. -/
theorem inv_of_start {s : State} (hf : RegistersFit s) (hb : CursorInRange s) (hv : s.valid = true) (hx : s.exh = false) (hc : s.lastSig = 0)
    (hg : Memory.wf s.grid = true) : Inv s :=
  ⟨hf, fun _ => hb, fun h => absurd (hv.symm.trans h) (by decide), fun h => absurd (hx.symm.trans h) (by decide),
    by rw [hc]; decide, fun h => absurd hc h, hg⟩

theorem grid223_inRange : CursorInRange grid223 := by decide

theorem grid223_inv : Inv grid223 := inv_of_start (by decide) grid223_inRange rfl rfl rfl (by decide)

theorem witness_ResetGivesEveryRegisterItsValue :
    (withMoves (putCursor grid223 1 1 2 7 false) [.reset]).host = .reset :: [] := rfl

theorem witness_StepKeepsTheInvariant :
    Inv (withMoves grid223 [.command 0x02000000000000000000#80 []]) ∧
    ∃ t, step (withMoves grid223 [.command 0x02000000000000000000#80 []]) = .next t :=
  ⟨inv_of_start (by decide) grid223_inRange rfl rfl rfl (by decide), _, rfl⟩

theorem witness_NoCommandPresentsAnInvalidAddress : Inv grid223 := grid223_inv

theorem witness_StepRunsTheDecodedCommand :
    (withMoves grid223 [.command 0x03010000000000000000#80 [7], .reset]).host =
      .command 0x03010000000000000000#80 [7] :: [.reset] ∧
    decodeCommand .defaults 0x03010000000000000000#80 = .command (.wbit true) := ⟨rfl, by decide⟩

theorem witness_IllegalWordChangesOnlyLastsigAndErrs :
    (withMoves State.reset [.command 0x02010000000000000000#80 []]).host = .command 0x02010000000000000000#80 [] :: [] ∧
    decodeCommand .defaults 0x02010000000000000000#80 = .illegal .nonzeroField := ⟨rfl, by decide⟩

theorem witness_IdleAndHostStoreSteps :
    State.reset.host = [] ∧ (withMoves grid223 [.store 11 0xFF]).host = .store 11 0xFF :: [] := ⟨rfl, rfl⟩

theorem witness_DecodeOfEncodeIsTheCommand :
    WellFormed .defaults (.tobits 64 0xFFFFFFFFFFFFFFFF) = true ∧ WellFormed .defaults (.frombits 1 1) = true ∧
    WellFormed .defaults (.init 0xFFFFFF 0 0xFFFF) = true := by decide

theorem witness_EncodeOfDecodeIsTheWord :
    decodeCommand .defaults 0x0740FFFFFFFFFFFFFFFF#80 = .command (.frombits 64 0xFFFFFFFFFFFFFFFF) := by decide

theorem witness_DecoderFollowsTheMaskTable :
    ∃ r ∈ opcodeTable, r.selects 0x0A0A0000000000000000#80 = true ∧ r.mnemonic = "RDREG" :=
  ⟨⟨"RDREG", 0x0A000000000000000000#80, 0xFF00FFFFFFFFFFFFFFFF#80⟩, by decide, by decide, rfl⟩

theorem witness_MaskAnswersThePair : 8 ≤ (8#8 : Byte).toNat ∧ 8 ≤ (255#8 : Byte).toNat ∧ (1#64 : Data) ≠ 0#64 := by decide

/-- The last slot-in-time of the 2×2×3 carrier, and the one before it. -/
theorem witness_AdvanceFollowsTheClosedForm :
    CursorInRange (putCursor grid223 1 1 2 7 false) ∧
    (putCursor grid223 1 1 2 7 false).streamPos + 1 = 8 * (putCursor grid223 1 1 2 7 false).capacity ∧
    CursorInRange (putCursor grid223 1 1 1 7 false) ∧
    (putCursor grid223 1 1 1 7 false).streamPos + 1 < 8 * (putCursor grid223 1 1 1 7 false).capacity := by decide

theorem witness_ExactlyEightPlanesOfAdvances :
    0 < grid223.capacity ∧ 95 < 8 * grid223.capacity ∧ 8 * grid223.capacity ≤ 96 := by decide

/-- For ADV, WBIT, RBIT and the read after a write, whose hypotheses are the same: the cursor at the start and at the
last place below the last slot-in-time. -/
theorem witness_AdvMovesOneSlot :
    grid223.valid = true ∧ grid223.exh = false ∧ CursorInRange grid223 ∧
    grid223.streamPos + 1 < 8 * grid223.capacity ∧ CursorInRange (putCursor grid223 1 1 1 7 false) ∧
    (putCursor grid223 1 1 1 7 false).streamPos + 1 < 8 * (putCursor grid223 1 1 1 7 false).capacity := by decide

theorem witness_WbitWritesOneBitAndAdvances :
    grid223.valid = true ∧ grid223.exh = false ∧ CursorInRange grid223 ∧
    grid223.streamPos + 1 < 8 * grid223.capacity := by decide

theorem witness_RbitReadsOneBitAndAdvances :
    (putCursor grid223 1 1 1 7 false).valid = true ∧ (putCursor grid223 1 1 1 7 false).exh = false ∧
    CursorInRange (putCursor grid223 1 1 1 7 false) ∧
    (putCursor grid223 1 1 1 7 false).streamPos + 1 < 8 * (putCursor grid223 1 1 1 7 false).capacity := by decide

theorem witness_BitReadAfterBitWrite :
    grid223.valid = true ∧ grid223.exh = false ∧ CursorInRange grid223 ∧ grid223.streamPos + 1 < 8 * grid223.capacity ∧
    gives (exec (.wbit true) grid223) (fun _ => true) = true := by decide +kernel

/-- For ADV, WBIT and RBIT: the last slot of plane 7, and an exhausted cursor. -/
theorem witness_AdvExhaustsAtTheLastSlot :
    (putCursor grid223 1 1 2 7 false).valid = true ∧ (putCursor grid223 1 1 2 7 false).exh = false ∧
    (putCursor grid223 1 1 2 7 false).row + 1 = grid223.height ∧ (putCursor grid223 1 1 2 7 false).col + 1 = grid223.width ∧
    (putCursor grid223 1 1 2 7 false).ch + 1 = grid223.channels ∧ (putCursor grid223 1 1 2 7 false).k = 7 ∧
    (putCursor grid223 0 0 0 7 true).valid = true ∧ (putCursor grid223 0 0 0 7 true).exh = true := by decide

theorem witness_WbitAndExhaustion :
    (carrier 1 1 1 [0x55]).valid = true ∧ (carrier 1 1 1 [0x55]).exh = false ∧
    (carrier 1 1 1 [0x55]).row + 1 = (carrier 1 1 1 [0x55]).height ∧
    (carrier 1 1 1 [0x55]).col + 1 = (carrier 1 1 1 [0x55]).width ∧
    (carrier 1 1 1 [0x55]).ch + 1 = (carrier 1 1 1 [0x55]).channels ∧
    (putCursor (carrier 1 1 1 [0x55]) 0 0 0 7 false).k = 7 ∧ (carrier 1 1 1 [0x55]).exhausted.exh = true := by decide

theorem witness_RbitAndExhaustion :
    (carrier 1 2 1 [0xA5, 0x3C]).valid = true ∧
    (putCursor (carrier 1 2 1 [0xA5, 0x3C]) 0 1 0 7 false).col + 1 = (carrier 1 2 1 [0xA5, 0x3C]).width ∧
    (putCursor (carrier 1 2 1 [0xA5, 0x3C]) 0 1 0 7 false).k = 7 ∧
    (carrier 1 2 1 [0xA5, 0x3C]).exhausted.exh = true := by decide

/-- A step of the plane and a step without one. -/
theorem witness_BitDepthStepsOnlyAtAFullWrap :
    gives (exec .adv (putCursor grid223 1 1 2 0 false)) (fun t => t.k == 1) = true ∧
    gives (exec .rbit grid223) (fun t => t.k == 0) = true ∧
    gives (exec (.wbit true) (putCursor grid223 1 1 2 6 false)) (fun t => t.k == 7) = true := by decide +kernel

/-- The corner cell of the 2×2×3 grid, and another cell to read. -/
theorem witness_GridWriteReplacesOneCell :
    1 < grid223.height ∧ 1 < grid223.width ∧ 2 < grid223.channels ∧
    (0, 0, 0) ≠ (1, 1, 2) ∧ ∃ u, gridRead 0 0 0 grid223 = .go u grid223 := ⟨by decide, by decide, by decide, by decide, _, rfl⟩

theorem witness_CommandsWithoutACarrier :
    State.reset.valid = false ∧ WellFormed State.reset.params (.init 0 5 3) = true := by decide

/-- Each clause at its bounds: fits, too large, illegal. -/
theorem witness_TobitsChecksTheWidth :
    (1 ≤ 1 ∧ 2 ^ 1 ≤ 2 ∧ 1 < 2 ^ 1) ∧ (1 ≤ (8#8 : Byte).toNat ∧ (8#8 : Byte).toNat ≤ 64 ∧ (255#64 : Data).toNat < 2 ^ (8#8 : Byte).toNat) ∧
    2 ^ (8#8 : Byte).toNat ≤ (256#64 : Data).toNat ∧ (0#8 : Byte).toNat = 0 ∧ 64 < (65#8 : Byte).toNat := by decide

theorem witness_FrombitsSpellsTheField :
    (∀ j, (3#8 : Byte).toNat ≤ j → (5#64 : Data).getLsbD j = false) ∧
    ((8#8 : Byte).toNat ≤ 8 ∧ (0x1A5#64 : Data).getLsbD 8 = true) ∧ (0#8 : Byte).toNat = 0 ∧ 64 < (65#8 : Byte).toNat ∧
    1 ≤ (1#8 : Byte).toNat ∧ (64#8 : Byte).toNat ≤ 64 ∧ (0xA5#64 : Data).toNat < 2 ^ (8#8 : Byte).toNat ∧
    (0xFFFFFFFFFFFFFFFF#64 : Data).toNat < 2 ^ (64#8 : Byte).toNat := by
  refine ⟨fun j hj => Nat.testBit_lt_two_pow (Nat.lt_of_lt_of_le (by decide : 5 < 2 ^ 3) (Nat.pow_le_pow_right (by decide) hj)), ?_⟩
  decide

theorem witness_ConvertersAreInverse : 1 ≤ 1 ∧ 1 < 2 ^ 1 ∧ 1 ≤ [true, false, true].length := by decide

theorem witness_PackingPlacesTheDigits : 1 ≤ [true].length ∧ (List.replicate 64 true).length ≤ 64 := by decide

/-- On both sides of the boundary `64 + 8*L = C` (`C = 72`). -/
theorem witness_EncodeCapacityBoundary :
    (carrier 4 6 3 []).valid = true ∧ 64 + 8 * (1#64 : Data).toNat = (carrier 4 6 3 []).capacity ∧
    (carrier 4 6 3 []).capacity < 64 + 8 * (2#64 : Data).toNat := by decide

theorem witness_CarrierTooSmallOnlyUpFront :
    (carrier 8 8 1 []).valid = true ∧ (carrier 8 8 1 []).capacity < 64 + 8 * (1#64 : Data).toNat ∧
    gives (exec (.encode 1) (carrier 8 8 1 [])) (fun t => t.response.map Response.sig == some 2) = true := by
  decide +kernel

/-- The 72-cell carrier with the one byte of V-ENC-1 in PAYIN. -/
def boundary : State := { carrier 4 6 3 (List.replicate 72 0xFF) with payIn := [0xA5] }

theorem witness_EncodeWritesTheFrame :
    boundary.valid = true ∧ boundary.payIn.length = (1#64 : Data).toNat ∧
    64 + 8 * (1#64 : Data).toNat ≤ boundary.capacity := by decide

/-- V-DEC-5 and V-DEC-7: nine cells hold no byte, ten cells one byte. -/
theorem witness_DecodeDeliversTheStream :
    (carrier 3 3 1 (List.replicate 9 0)).valid = true ∧
    streamLength (carrier 3 3 1 (List.replicate 9 0)).grid 9 + 9 ≤ 9 ∧
    streamLength (carrier 2 5 1 [0x80, 0x80, 0, 0x40, 0x40, 0x40, 0, 0, 0, 0]).grid 10 + 9 = 10 := by decide +kernel

/-- V-DEC-5b: the last digit of the length is 1. -/
theorem witness_DecodeReportsTruncation :
    (carrier 3 3 1 [0x80, 0, 0, 0, 0, 0, 0, 0, 0]).valid = true ∧
    0 < (carrier 3 3 1 [0x80, 0, 0, 0, 0, 0, 0, 0, 0]).capacity ∧
    (carrier 3 3 1 [0x80, 0, 0, 0, 0, 0, 0, 0, 0]).capacity <
      streamLength (carrier 3 3 1 [0x80, 0, 0, 0, 0, 0, 0, 0, 0]).grid 9 + 9 := by decide +kernel

/-- Encode, then decode the grid it left. -/
theorem witness_DecodeOfEncodeIsThePayload :
    boundary.valid = true ∧ boundary.payIn.length = (1#64 : Data).toNat ∧ 64 + 8 * (1#64 : Data).toNat ≤ boundary.capacity ∧
    ∃ t u : State, exec (.encode 1) boundary = .next t ∧ u.valid = true ∧ u.height = boundary.height ∧
      u.width = boundary.width ∧ u.channels = boundary.channels ∧
      ∀ a, a < 64 + 8 * (1#64 : Data).toNat → (Memory.read u.grid a).getLsbD 0 = (Memory.read t.grid a).getLsbD 0 := by
  have h : gives (exec (.encode 1) boundary) (fun t => t.valid && t.height == boundary.height &&
      t.width == boundary.width && t.channels == boundary.channels) = true := by decide +kernel
  obtain ⟨e, p⟩ := next_of_gives h boundary
  simp only [Bool.and_eq_true, beq_iff_eq] at p
  exact ⟨rfl, rfl, by decide, _, _, e, p.1.1.1, p.1.1.2, p.1.2, p.2, fun _ _ => rfl⟩

/-- 63 and 64 cells. -/
theorem witness_EmptyPayloadRoundTrip :
    (carrier 3 7 3 []).valid = true ∧ (carrier 3 7 3 []).capacity < 64 ∧ (carrier 8 8 1 []).valid = true ∧
    64 ≤ (carrier 8 8 1 []).capacity := by decide

theorem witness_StreamBitsFillThePlanes : (List.replicate 95 true).length < 8 * grid223.capacity := by decide

/-- The same nine cells as 3×3×1 and as 1×3×3. -/
theorem witness_DecodeSeesOnlyTheCells :
    (carrier 3 3 1 (List.replicate 9 0)).valid = true ∧ (carrier 1 3 3 (List.replicate 9 0)).valid = true ∧
    (carrier 3 3 1 (List.replicate 9 0)).capacity = (carrier 1 3 3 (List.replicate 9 0)).capacity ∧
    (∀ a, a < 9 → Memory.read (carrier 3 3 1 (List.replicate 9 0)).grid a =
      Memory.read (carrier 1 3 3 (List.replicate 9 0)).grid a) ∧
    gives (exec .decode (carrier 3 3 1 (List.replicate 9 0))) (fun _ => true) = true :=
  ⟨rfl, rfl, by decide, fun _ _ => rfl, by decide +kernel⟩

theorem witness_FrameCommandsDiscardTheCursor :
    (carrier 3 3 1 (List.replicate 9 0)).valid = true ∧ boundary.valid = true ∧
    64 + 8 * (1#64 : Data).toNat ≤ boundary.capacity := by decide

/-- Dimensions of 1 and the largest, and each dimension zero in turn. -/
theorem witness_InitBindsOrUnbinds :
    (1#8 : Byte) ≠ 0#8 ∧ WellFormed grid223.params (.init 1 1 1) = true ∧
    WellFormed grid223.params (.init 0xFFFFFF 0xFFFFFF 0xFFFF) = true ∧
    WellFormed grid223.params (.init 0 5 3) = true ∧ WellFormed grid223.params (.init 5 0 3) = true ∧
    WellFormed grid223.params (.init 5 5 0) = true := by decide

theorem witness_InitFieldsFollowTheParameters :
    WellFormed narrow (.init 255 255 15) = true ∧ narrow.capBits ≤ 20 ∧ (0x100000#64 : Data).getLsbD 20 = true := by decide

theorem witness_RdregReadsEveryRegister :
    0x0A < (0x0B#8 : Byte).toNat ∧ 0x0A < (0xFF#8 : Byte).toNat ∧ (1#64 : Data) ≠ 0#64 ∧
    RegistersFit (putCursor (carrier 0xFFFFFF 0xFFFFFF 0xFFFF []) 0xFFFFFE 0 0 7 false) := by decide

theorem witness_StatusPacksTheFlags :
    3 ≤ 3 ∧ 7 < 8 ∧ 16 ≤ 63 ∧ (withMoves grid223 [.store 0 0xFF]).host = .store 0 0xFF :: [] ∧
    gives (step (withMoves grid223 [.store 0 0xFF])) (fun _ => true) = true := by decide +kernel

/-- Every command ends with a next state on this bound carrier: the rules over all commands speak of each. -/
def everyCommand : List Instr :=
  [.init 2 2 3, .init 0 1 1, .adv, .wbit true, .rbit, .mask 7, .tobits 8 255, .tobits 8 256, .frombits 3 5, .encode 1,
   .decode, .rdreg .status]

theorem witness_rules_over_all_commands : everyCommand.all (fun i => gives (exec i boundary) fun t => t.response.isSome) = true := by
  decide +kernel

/-- On the 72-cell carrier, on one without a carrier and at the end of the traversal: the commands that signal. -/
theorem witness_SignalsOfEachCommand :
    everyCommand.all (WellFormed .defaults) = true ∧
    gives (exec .decode boundary) (fun t => t.response.map Response.sig == some 5) = true ∧
    gives (exec (.encode 2) boundary) (fun t => t.response.map Response.sig == some 2) = true ∧
    gives (exec .adv State.reset) (fun t => t.response.map Response.sig == some 1) = true := by decide +kernel

/-- The clauses of the write sets: a command that is no INIT, one that leaves the cursor alone, one that writes no
cell. -/
theorem witness_CommandsKeepToTheirWriteSets :
    gives (exec (.mask 7) boundary) (fun _ => true) = true ∧ gives (exec .decode boundary) (fun _ => true) = true ∧
    gives (exec (.rdreg .k) boundary) (fun _ => true) = true := by decide +kernel

/-- A DECODE that ends `OK`, one without a carrier, one that runs out of cells; a word that is no command; a reset and a
store. -/
theorem witness_PayOutHoldsTheLatestPayload :
    gives (exec .decode (carrier 3 3 1 (List.replicate 9 0))) (fun t => t.response.map Response.sig == some 0) = true ∧
    gives (exec .decode State.reset) (fun t => t.response.map Response.sig == some 1) = true ∧
    gives (exec .decode boundary) (fun t => t.response.map Response.sig == some 5) = true ∧
    gives (exec .adv boundary) (fun _ => true) = true ∧
    decodeCommand grid223.params 0x02010000000000000000#80 = .illegal .nonzeroField ∧
    gives (step (withMoves { grid223 with payOut := [0xA5] } [.reset])) (fun t => t.payOut == [0xA5]) = true ∧
    gives (step (withMoves { grid223 with payOut := [0xA5] } [.store 0 0xFF])) (fun t => t.payOut == [0xA5]) = true := by
  decide +kernel

theorem witness_GridWritersTouchOnlyTheirBits :
    gives (exec (.wbit true) boundary) (fun _ => true) = true ∧ gives (exec (.encode 1) boundary) (fun _ => true) = true ∧
    gridAddress boundary 0 0 0 ≠ some 71 := by decide +kernel

/-- ERRS set, and a step that clears it: a reset, a successful INIT. -/
theorem witness_ErrsIsSticky :
    gives (step (withMoves { grid223 with errs := true } [.reset])) (fun t => !t.errs) = true ∧
    gives (step (withMoves { grid223 with errs := true } [.command 0x01000000020000020003#80 []])) (fun t => !t.errs) =
      true := by decide +kernel

theorem witness_LastsigHoldsTheLatestCode :
    gives (exec (.rdreg .status) { grid223 with lastSig := 3 }) (fun t => t.lastSig == 3) = true ∧
    gives (exec .adv State.reset) (fun t => t.lastSig == 1) = true := by decide +kernel

theorem witness_EveryCommandGivesOneResponse :
    gives (exec .adv grid223) (fun t => t.response.isSome) = true ∧
    gives (exec .adv State.reset) (fun t => t.response.map Response.sig == some 1) = true := by decide +kernel

theorem witness_PrimitiveWritesEqualEncode :
    boundary.valid = true ∧ rewind boundary = boundary ∧ boundary.payIn.length = (1#64 : Data).toNat ∧
    64 + 8 * (1#64 : Data).toNat ≤ boundary.capacity ∧ gives (exec (.encode 1) boundary) (fun _ => true) = true := by
  decide +kernel

/-- RBYTE on 2×2×3 as far as position `87 + 8 < 96`; RLEN from the start. -/
theorem witness_ReadingPseudoCommands :
    (grid223.atStream 87).valid = true ∧ (grid223.atStream 87).exh = false ∧ CursorInRange (grid223.atStream 87) ∧
    (grid223.atStream 87).streamPos + 8 < 8 * (grid223.atStream 87).capacity ∧ CursorInRange grid223 ∧
    grid223.streamPos + 64 < 8 * grid223.capacity ∧
    grid223.exhausted.valid = true ∧ 0 < grid223.exhausted.capacity ∧ RegistersFit grid223.exhausted := by decide

end Sys2Proof.Tests
end

/-! PROOFS. The state family: the mask pair and its table (10_state.md R25, R26), and the code every command leaves in
`LASTSIG` (R30). -/

namespace Sys2Proof.Machine

/-! ### How a command ends -/

/-- Every command but RDREG is a piece of pseudocode whose end writes `LASTSIG` (10_state.md R30). -/
theorem exec_eq_finish {i : Instr} (s : State) (hi : ∀ q, i ≠ .rdreg q) : ∃ x : Flow Data, exec i s = x.finish := by
  cases i with
  | init h w c => exact ⟨_, rfl⟩
  | adv => exact ⟨_, rfl⟩
  | wbit b => exact ⟨_, rfl⟩
  | rbit => exact ⟨_, rfl⟩
  | mask k => exact ⟨.go ((clrMask k ++ setMask k).setWidth 64) s, rfl⟩
  | tobits width value => exact ⟨_, rfl⟩
  | frombits n digits => exact ⟨_, rfl⟩
  | encode len => exact ⟨_, rfl⟩
  | decode => exact ⟨_, rfl⟩
  | rdreg q => exact absurd rfl (hi q)

/-- A decoded RDREG has one end, the quiet one (44_system.md R155). -/
theorem exec_rdreg (q : RegName) (s : State) : exec (.rdreg q) s = .next (respondQuietly (readReg s q) s) := rfl

/-- A command other than RDREG that ends does so with a result or with a signal. -/
theorem respond_or_raiseSignal_of_exec {i : Instr} {s t : State} (hi : ∀ q, i ≠ .rdreg q) (h : exec i s = .next t) :
    (∃ d u, t = respond d u) ∨ ∃ sig u, t = raiseSignal sig u := by
  obtain ⟨x, hx⟩ := exec_eq_finish s hi
  rw [hx] at h
  rcases next_of_finish h with ⟨d, u, -, ht⟩ | ⟨sig, u, -, ht⟩
  · exact .inl ⟨d, u, ht⟩
  · exact .inr ⟨sig, u, ht⟩

/-- An illegal word is over as soon as it is decoded (60_exceptions.md R170). -/
theorem acceptWord_of_illegal {w : CommandWord} {e : DecodeError} {s : State} (h : decodeCommand s.params w = .illegal e) :
    acceptWord w s = .done (raiseSignal .illegalCommand s) := by
  rw [acceptWord, h]

/-- Both ends that write `LASTSIG` write the code of the response they give. -/
theorem lastSig_eq_response_sig_of_exec {i : Instr} {s t : State} (hi : ∀ q, i ≠ .rdreg q) (h : exec i s = .next t) :
    ∃ r, t.response = some r ∧ t.lastSig = r.sig := by
  rcases respond_or_raiseSignal_of_exec hi h with ⟨d, u, rfl⟩ | ⟨sig, u, rfl⟩
  · exact ⟨_, respond_response d u, rfl⟩
  · exact ⟨_, raiseSignal_response sig u, rfl⟩

/-- Settles O50: RDREG ends quietly; every other command, and an illegal word, ends by writing its response's code. -/
theorem lastsigHoldsTheLatestCode : Obligations.LastsigHoldsTheLatestCode := by
  refine ⟨fun w e s t hw ht => ?_, fun i s t h => ?_⟩
  · rw [acceptWord_of_illegal hw] at ht
    cases ht
    exact ⟨rfl, _, raiseSignal_response .illegalCommand s, rfl⟩
  · by_cases hi : ∃ q, i = .rdreg q
    · obtain ⟨q, rfl⟩ := hi
      cases h
      exact ⟨_, respondQuietly_response _ s, fun hne => absurd rfl (hne q), fun _ => ⟨rfl, rfl⟩⟩
    · obtain ⟨r, hr, hsig⟩ := lastSig_eq_response_sig_of_exec (not_exists.mp hi) h
      exact ⟨r, hr, fun _ => hsig, fun hq => absurd hq hi⟩

/-! ### The mask pair and its table -/

/-- `1 << k` loses no bit in a byte, as `k ≤ 7`. -/
theorem setMask_toNat (k : BitVec 3) : (setMask k).toNat = 2 ^ k.toNat := BitVec.toNat_twoPow_of_lt k.isLt

/-- The complement in R25 is taken by an exclusive or with all ones. -/
theorem clrMask_eq_not (k : BitVec 3) : clrMask k = ~~~ setMask k := BitVec.allOnes_xor

/-- The lower eight entries of `MASKLUT` are the set masks (R26). -/
theorem maskLutAt_zero (k : BitVec 3) : maskLutAt 0 k = setMask k := by
  revert k
  decide

/-- The upper eight entries of `MASKLUT` are the clear masks (R26). -/
theorem maskLutAt_one (k : BitVec 3) : maskLutAt 1 k = clrMask k := by
  revert k
  decide

theorem getBit_eq_decide (v : Byte) (k : BitVec 3) : getBit v k = decide (v &&& setMask k ≠ 0#8) := by
  rw [Bool.eq_iff_iff, getBit, bne_iff_ne, decide_eq_true_iff]

/-- A mask is not cut when RDREG extends it to 64 bits (R35). -/
theorem readReg_setMask_toNat (s : State) : (readReg s .setMask).toNat = (setMask s.k).toNat :=
  BitVec.toNat_setWidth_of_le (by decide)

theorem readReg_clrMask_toNat (s : State) : (readReg s .clrMask).toNat = (clrMask s.k).toNat :=
  BitVec.toNat_setWidth_of_le (by decide)

/-- Settles O13: the sixteen entries of the table are the two masks at every `k`, so the writer, the reader and the two
views of RDREG, all written on the masks, are written on the table. -/
theorem maskPairIsTheTable : Obligations.MaskPairIsTheTable := by
  refine ⟨rfl, fun k => ?_⟩
  rw [maskLutAt_zero, maskLutAt_one]
  refine ⟨setMask_toNat k, clrMask_eq_not k, rfl, rfl, rfl, fun v => ⟨rfl, rfl, getBit_eq_decide v k⟩, ?_⟩
  rintro s rfl
  exact ⟨readReg_setMask_toNat s, readReg_clrMask_toNat s⟩

end Sys2Proof.Machine

/-! PROOFS. The memory family: the addresses of the GRID, and what its two accesses return and leave unchanged
(20_memory.md R51 to R53). -/

namespace Sys2Proof.Machine

/-! ### Addresses of the GRID -/

/-- The addresses are the slot indices of the triples within the dimensions (R51). -/
theorem gridAddress_eq_some {s : State} {r c h a : Nat} :
    gridAddress s r c h = some a ↔
      (r < s.height ∧ c < s.width ∧ h < s.channels) ∧ (r * s.width + c) * s.channels + h = a :=
  Option.ite_none_right_eq_some.trans (and_congr_right' Option.some_inj)

/-- A valid triple is an address of its own: its three numbers are read back from the slot index. -/
theorem gridAddress_injective {s : State} {r c h r' c' h' a : Nat} (ha : gridAddress s r c h = some a)
    (ha' : gridAddress s r' c' h' = some a) : (r', c', h') = (r, c, h) := by
  obtain ⟨⟨-, hc, hh⟩, rfl⟩ := gridAddress_eq_some.mp ha
  obtain ⟨⟨-, hc', hh'⟩, heq⟩ := gridAddress_eq_some.mp ha'
  have hrow : r' = r := by rw [← slot_row (r := r') hc' hh', heq, slot_row hc hh]
  have hcol : c' = c := by rw [← slot_col (r := r') hc' hh', heq, slot_col hc hh]
  have hch : h' = h := by rw [← slot_mod (r := r') (c := c') hh', heq, slot_mod hh]
  rw [hrow, hcol, hch]

/-- The numbering depends on the dimensions, not on the cells. -/
@[simp] theorem gridAddress_withGrid (s : State) (g : Memory) (r c h : Nat) :
    gridAddress (s.withGrid g) r c h = gridAddress s r c h := rfl

/-! ### Reads and writes of a cell -/

theorem gridRead_of_gridAddress {s : State} {r c h a : Nat} (ha : gridAddress s r c h = some a) :
    gridRead r c h s = .go (Memory.read s.grid a) s := by
  rw [gridRead, ha]

theorem gridWrite_of_gridAddress {s : State} {r c h a : Nat} (ha : gridAddress s r c h = some a) (v : Byte) :
    gridWrite r c h v s = .go () (s.withGrid (Memory.write s.grid a v)) := by
  rw [gridWrite, ha]
  rfl

/-- A read that answers was at a valid address. -/
theorem gridAddress_of_gridRead {s t : State} {r c h : Nat} {u : Byte} (hr : gridRead r c h s = .go u t) :
    ∃ a, gridAddress s r c h = some a := by
  cases ha : gridAddress s r c h with
  | none => simp [gridRead, ha] at hr
  | some a => exact ⟨a, rfl⟩

/-- A read after a write to the same address gives the value written (R52, R53). -/
theorem gridRead_withGrid_write_same {s : State} {r c h a : Nat} (ha : gridAddress s r c h = some a) (v : Byte) :
    gridRead r c h (s.withGrid (Memory.write s.grid a v)) = .go v (s.withGrid (Memory.write s.grid a v)) := by
  rw [gridRead_of_gridAddress ((gridAddress_withGrid ..).trans ha), State.withGrid_grid, Memory.read_write, if_pos rfl]

/-- A read after a write to another address gives what the cell held before (R53). -/
theorem gridRead_withGrid_write_of_ne {s : State} {r c h a b : Nat} (ha : gridAddress s r c h = some a) (hab : a ≠ b)
    (v : Byte) : gridRead r c h (s.withGrid (Memory.write s.grid b v)) =
      .go (Memory.read s.grid a) (s.withGrid (Memory.write s.grid b v)) := by
  rw [gridRead_of_gridAddress ((gridAddress_withGrid ..).trans ha), State.withGrid_grid, Memory.read_write, if_neg hab]

/-- Settles O21: both accesses go through the address, and another valid triple has another address. -/
theorem gridWriteReplacesOneCell : Obligations.GridWriteReplacesOneCell := by
  intro s r c h v hr hc hh
  have ha : gridAddress s r c h = some ((r * s.width + c) * s.channels + h) := gridAddress_eq_some.mpr ⟨⟨hr, hc, hh⟩, rfl⟩
  refine ⟨⟨_, gridRead_of_gridAddress ha⟩, _, gridWrite_of_gridAddress ha v, gridRead_withGrid_write_same ha v, ?_⟩
  intro r' c' h' u hne hread
  obtain ⟨b, hb⟩ := gridAddress_of_gridRead hread
  have hba : b ≠ (r * s.width + c) * s.channels + h := fun heq => hne (gridAddress_injective ha (heq ▸ hb))
  rw [gridRead_of_gridAddress hb] at hread
  cases hread
  exact gridRead_withGrid_write_of_ne hb hba v

end Sys2Proof.Machine

/-! PROOFS. The encoding family: the decoder and the mask and match table (30_encoding.md R80, R81), packed digit strings
(R77), and the response word (R71). -/

namespace Sys2Proof

/-! ### A decoded word is the command's word -/

theorem eq_and_zero_of_decodePlain {i j : Instr} {aux : Byte} {d : Data} (h : decodePlain i aux d = .command j) :
    j = i ∧ aux = 0#8 ∧ d = 0#64 := by
  unfold decodePlain at h
  split at h <;> cases h
  exact ⟨rfl, ‹_›⟩

theorem encodeCommand_of_decodeInit {p : Params} {i : Instr} {aux : Byte} {d : Data} (h : decodeInit p aux d = .command i) :
    encodeCommand p i = assemble 0x01#8 aux d ∧ WellFormed p i = true := by
  unfold decodeInit at h
  split at h <;> cases h
  rename_i hz
  obtain ⟨rfl, hd⟩ := hz
  exact ⟨by rw [encodeCommand, dimensionData_fields hd], dimensionsFit_fields p d⟩

/-- What is above bit 0 being zero, the byte is its bit 0. -/
theorem setWidth_ofBool_of_high_zero {aux : Byte} (h : aux.extractLsb' 1 7 = 0#7) :
    (BitVec.ofBool (aux.getLsbD 0)).setWidth 8 = aux := by
  revert aux
  decide

/-- What is above bit 2 being zero, the byte is its bits 2 to 0. -/
theorem setWidth_low_of_high_zero {aux : Byte} (h : aux.extractLsb' 3 5 = 0#5) :
    (aux.extractLsb' 0 3).setWidth 8 = aux := by
  revert aux
  decide

theorem encodeCommand_of_decodeWbit {p : Params} {i : Instr} {aux : Byte} {d : Data} (h : decodeWbit aux d = .command i) :
    encodeCommand p i = assemble 0x03#8 aux d ∧ WellFormed p i = true := by
  unfold decodeWbit at h
  split at h <;> cases h
  rename_i hz
  obtain ⟨hz, rfl⟩ := hz
  exact ⟨by rw [encodeCommand, setWidth_ofBool_of_high_zero hz], rfl⟩

theorem encodeCommand_of_decodeMask {p : Params} {i : Instr} {aux : Byte} {d : Data} (h : decodeMask aux d = .command i) :
    encodeCommand p i = assemble 0x05#8 aux d ∧ WellFormed p i = true := by
  unfold decodeMask at h
  split at h <;> cases h
  rename_i hz
  obtain ⟨hz, rfl⟩ := hz
  exact ⟨by rw [encodeCommand, setWidth_low_of_high_zero hz], rfl⟩

theorem encodeCommand_of_decodeTobits {p : Params} {i : Instr} {aux : Byte} {d : Data}
    (h : decodeTobits aux d = .command i) :
    encodeCommand p i = assemble 0x06#8 aux d ∧ WellFormed p i = true := by
  unfold decodeTobits at h
  split at h <;> cases h
  exact ⟨rfl, ‹_›⟩

theorem encodeCommand_of_decodeFrombits {p : Params} {i : Instr} {aux : Byte} {d : Data}
    (h : decodeFrombits aux d = .command i) :
    encodeCommand p i = assemble 0x07#8 aux d ∧ WellFormed p i = true := by
  unfold decodeFrombits at h
  split at h
  · split at h <;> cases h
    exact ⟨rfl, Bool.and_eq_true_iff.mpr ⟨‹_›, ‹_›⟩⟩
  · cases h

theorem encodeCommand_of_decodeEncode {p : Params} {i : Instr} {aux : Byte} {d : Data}
    (h : decodeEncode aux d = .command i) :
    encodeCommand p i = assemble 0x08#8 aux d ∧ WellFormed p i = true := by
  unfold decodeEncode at h
  split at h <;> cases h
  rename_i hz
  exact ⟨by rw [hz]; rfl, rfl⟩

theorem encodeCommand_of_decodeRdreg {p : Params} {i : Instr} {aux : Byte} {d : Data} (h : decodeRdreg aux d = .command i) :
    encodeCommand p i = assemble 0x0A#8 aux d ∧ WellFormed p i = true := by
  unfold decodeRdreg at h
  split at h
  · rename_i hz
    split at h <;> cases h
    rename_i hr
    exact ⟨by rw [encodeCommand, indexOfReg_of_regOfIndex hr, hz], rfl⟩
  · cases h

/-- Decoding loses nothing: a word that decodes is the encoding of its command, and the command is well-formed. -/
theorem encodeCommand_of_decodeCommand {p : Params} {w : CommandWord} {i : Instr} (h : decodeCommand p w = .command i) :
    encodeCommand p i = w ∧ WellFormed p i = true := by
  rw [← assemble_fields w]
  unfold decodeCommand decodeFields at h
  generalize opField w = op at *
  generalize auxField w = aux at *
  generalize dataField w = d at *
  split_ifs at h
  all_goals subst_vars
  · exact encodeCommand_of_decodeInit h
  · obtain ⟨rfl, rfl, rfl⟩ := eq_and_zero_of_decodePlain h
    exact ⟨rfl, rfl⟩
  · exact encodeCommand_of_decodeWbit h
  · obtain ⟨rfl, rfl, rfl⟩ := eq_and_zero_of_decodePlain h
    exact ⟨rfl, rfl⟩
  · exact encodeCommand_of_decodeMask h
  · exact encodeCommand_of_decodeTobits h
  · exact encodeCommand_of_decodeFrombits h
  · exact encodeCommand_of_decodeEncode h
  · obtain ⟨rfl, rfl, rfl⟩ := eq_and_zero_of_decodePlain h
    exact ⟨rfl, rfl⟩
  · exact encodeCommand_of_decodeRdreg h

/-! ### The rows of the table -/

/-- Every command's word selects the row of its mnemonic (30_encoding.md R81). -/
theorem encodeCommand_selects_row (i : Instr) : Laws.EncodesIntoItsRow.Statement i := by
  cases i with
  | init h w c => exact Laws.EncodesIntoItsRow.init h w c
  | adv => exact Laws.EncodesIntoItsRow.adv
  | wbit b => exact Laws.EncodesIntoItsRow.wbit b
  | rbit => exact Laws.EncodesIntoItsRow.rbit
  | mask k => exact Laws.EncodesIntoItsRow.mask k
  | tobits width value => exact Laws.EncodesIntoItsRow.tobits width value
  | frombits n digits => exact Laws.EncodesIntoItsRow.frombits n digits
  | encode len => exact Laws.EncodesIntoItsRow.encode len
  | decode => exact Laws.EncodesIntoItsRow.decode
  | rdreg q => exact Laws.EncodesIntoItsRow.rdreg q

/-- A selected row's fields are the word's, masked. -/
theorem fields_of_selects {w : CommandWord} {r : OpcodeRow} (h : r.selects w = true) :
    opField w &&& opField r.mask = opField r.pattern ∧
    auxField w &&& auxField r.mask = auxField r.pattern ∧
    dataField w &&& dataField r.mask = dataField r.pattern := by
  have hw : w &&& r.mask = r.pattern := of_decide_eq_true h
  rw [← assemble_fields w, ← assemble_fields r.mask, assemble_and] at hw
  simp [← hw]

/-- A field that a row masks with ones throughout is the row's. -/
theorem eq_of_and_full {n : Nat} {x m p : BitVec n} (h : x &&& m = p) (hm : m = BitVec.allOnes n) : x = p := by
  rw [← h, hm, BitVec.and_allOnes]

/-- The `op` byte is in every mask (R81). -/
theorem opField_of_selects {w : CommandWord} {r : OpcodeRow} (hr : r ∈ opcodeTable) (h : r.selects w = true) :
    opField w = opField r.pattern :=
  eq_of_and_full (fields_of_selects h).1 ((by decide : ∀ r ∈ opcodeTable, opField r.mask = BitVec.allOnes 8) r hr)

/-- The `op` byte differs between rows (R81). -/
theorem row_eq_of_opField_pattern_eq :
    ∀ r ∈ opcodeTable, ∀ q ∈ opcodeTable, opField r.pattern = opField q.pattern → r = q := by
  decide

/-! ### Value conditions -/

/-- The conditions on values that R80 (c) to (e) and R81 put on a word beside the row of this mnemonic. -/
def ValueConditions (name : String) (aux : Byte) (data : Data) : Prop :=
  (name = "TOBITS" ∨ name = "FROMBITS" → 1 ≤ aux.toNat ∧ aux.toNat ≤ 64) ∧
  (name = "FROMBITS" → ∀ j, aux.toNat ≤ j → data.getLsbD j = false) ∧
  (name = "RDREG" → aux.toNat ≤ 0x0A)

theorem noStrayDigit_iff {n : Byte} {d : Data} :
    noStrayDigit n d = true ↔ ∀ j, n.toNat ≤ j → d.getLsbD j = false := by
  rw [noStrayDigit, decide_eq_true_iff]
  exact ⟨fun h j hj => Nat.testBit_lt_two_pow (h.trans_le (Nat.pow_le_pow_right (by decide) hj)),
    fun h => Nat.lt_pow_two_of_testBit _ h⟩

theorem legalWidth_iff {n : Byte} : legalWidth n = true ↔ 1 ≤ n.toNat ∧ n.toNat ≤ 64 := decide_eq_true_iff

theorem indexOfReg_le (q : RegName) : (indexOfReg q).toNat ≤ 0x0A := by cases q <;> decide

theorem exists_regOfIndex {idx : Byte} (h : idx.toNat ≤ 0x0A) : ∃ q, regOfIndex idx = some q := by
  rw [← Option.isSome_iff_exists]
  revert idx
  decide

/-- A well-formed command's word meets the value conditions of its row. -/
theorem valueConditions_of_wellFormed {p : Params} {i : Instr} (h : WellFormed p i = true) :
    ValueConditions i.mnemonic (auxField (encodeCommand p i)) (dataField (encodeCommand p i)) := by
  cases i with
  | tobits width value => simpa [ValueConditions, Instr.mnemonic, encodeCommand] using legalWidth_iff.mp h
  | frombits n digits =>
    obtain ⟨hn, hd⟩ := Bool.and_eq_true_iff.mp h
    simpa [ValueConditions, Instr.mnemonic, encodeCommand] using ⟨legalWidth_iff.mp hn, noStrayDigit_iff.mp hd⟩
  | rdreg q => simpa [ValueConditions, Instr.mnemonic, encodeCommand] using indexOfReg_le q
  | _ => simp [ValueConditions, Instr.mnemonic]

/-- WBIT's mask leaves bit 0 of `aux` free and no other. -/
theorem extractLsb'_one_seven_eq_zero_of_and {aux : Byte} (h : aux &&& 0xFE#8 = 0#8) : aux.extractLsb' 1 7 = 0#7 := by
  revert aux
  decide

/-- MASK's mask leaves bits 2 to 0 of `aux` free and no other. -/
theorem extractLsb'_three_five_eq_zero_of_and {aux : Byte} (h : aux &&& 0xF8#8 = 0#8) : aux.extractLsb' 3 5 = 0#5 := by
  revert aux
  decide

/-- A word that selects a row and meets its value conditions is a command of the row: by rows, each with the decoder its
`op` byte leads to. -/
theorem decodeCommand_of_selects {w : CommandWord} {r : OpcodeRow} (hr : r ∈ opcodeTable) (h : r.selects w = true)
    (hv : ValueConditions r.mnemonic (auxField w) (dataField w)) :
    ∃ i, decodeCommand .defaults w = .command i ∧ i.mnemonic = r.mnemonic := by
  have hop := opField_of_selects hr h
  obtain ⟨-, haux, hdata⟩ := fields_of_selects h
  obtain ⟨hwidth, hstray, hindex⟩ := hv
  rw [decodeCommand, hop]
  simp only [opcodeTable, List.mem_cons, List.not_mem_nil, or_false] at hr
  rcases hr with rfl | rfl | rfl | rfl | rfl | rfl | rfl | rfl | rfl | rfl
  · change ∃ i, decodeInit .defaults (auxField w) (dataField w) = .command i ∧ i.mnemonic = "INIT"
    exact ⟨_, if_pos ⟨eq_of_and_full haux rfl, decide_eq_true (dataField w).isLt⟩, rfl⟩
  · change ∃ i, decodePlain .adv (auxField w) (dataField w) = .command i ∧ i.mnemonic = "ADV"
    exact ⟨_, if_pos ⟨eq_of_and_full haux rfl, eq_of_and_full hdata rfl⟩, rfl⟩
  · change ∃ i, decodeWbit (auxField w) (dataField w) = .command i ∧ i.mnemonic = "WBIT"
    exact ⟨_, if_pos ⟨extractLsb'_one_seven_eq_zero_of_and haux, eq_of_and_full hdata rfl⟩, rfl⟩
  · change ∃ i, decodePlain .rbit (auxField w) (dataField w) = .command i ∧ i.mnemonic = "RBIT"
    exact ⟨_, if_pos ⟨eq_of_and_full haux rfl, eq_of_and_full hdata rfl⟩, rfl⟩
  · change ∃ i, decodeMask (auxField w) (dataField w) = .command i ∧ i.mnemonic = "MASK"
    exact ⟨_, if_pos ⟨extractLsb'_three_five_eq_zero_of_and haux, eq_of_and_full hdata rfl⟩, rfl⟩
  · change ∃ i, decodeTobits (auxField w) (dataField w) = .command i ∧ i.mnemonic = "TOBITS"
    exact ⟨_, if_pos (legalWidth_iff.mpr (hwidth (.inl rfl))), rfl⟩
  · change ∃ i, decodeFrombits (auxField w) (dataField w) = .command i ∧ i.mnemonic = "FROMBITS"
    exact ⟨_, (if_pos (legalWidth_iff.mpr (hwidth (.inr rfl)))).trans (if_pos (noStrayDigit_iff.mpr (hstray rfl))), rfl⟩
  · change ∃ i, decodeEncode (auxField w) (dataField w) = .command i ∧ i.mnemonic = "ENCODE"
    exact ⟨_, if_pos (eq_of_and_full haux rfl), rfl⟩
  · change ∃ i, decodePlain .decode (auxField w) (dataField w) = .command i ∧ i.mnemonic = "DECODE"
    exact ⟨_, if_pos ⟨eq_of_and_full haux rfl, eq_of_and_full hdata rfl⟩, rfl⟩
  · change ∃ i, decodeRdreg (auxField w) (dataField w) = .command i ∧ i.mnemonic = "RDREG"
    obtain ⟨q, hq⟩ := exists_regOfIndex (hindex rfl)
    have hzero : dataField w = 0#64 := eq_of_and_full hdata rfl
    exact ⟨.rdreg q, by rw [decodeRdreg, if_pos hzero, hq], rfl⟩

/-- Settles O10: the `op` byte tells the rows apart; a decoded word is its command's word, which selects the command's row;
and from a selected row the decoder of its `op` byte goes through. -/
theorem decoderFollowsTheMaskTable : Obligations.DecoderFollowsTheMaskTable := by
  refine ⟨fun w r hr q hq hrw hqw => ?_, fun w name => ⟨?_, ?_⟩⟩
  · exact row_eq_of_opField_pattern_eq r hr q hq ((opField_of_selects hr hrw).symm.trans (opField_of_selects hq hqw))
  · rintro ⟨i, hi, rfl⟩
    obtain ⟨rfl, hwf⟩ := encodeCommand_of_decodeCommand hi
    obtain ⟨r, hr, hname, hsel⟩ := encodeCommand_selects_row i
    exact ⟨r, hr, hsel, hname, valueConditions_of_wellFormed hwf⟩
  · rintro ⟨r, hr, hsel, rfl, hv⟩
    exact decodeCommand_of_selects hr hsel hv

end Sys2Proof

namespace Sys2Proof.Machine

/-! ### Packed digit strings -/

/-- One digit shifted into the field is one round of the parse (R77, R120). -/
theorem shiftLeft_or_ofBool (field : Data) (b : Bool) :
    field <<< 1 ||| (BitVec.ofBool b).setWidth 64 = BitVec.ofNat 64 (parseDigit field.toNat b) := by
  have hand : field <<< 1 &&& (BitVec.ofBool b).setWidth 64 = 0#64 := by
    apply BitVec.eq_of_getLsbD_eq
    rintro (_ | i) hi <;> simp
  rw [← BitVec.add_eq_or_of_and_eq_zero _ _ hand]
  apply BitVec.eq_of_toNat_eq
  cases b <;> simp [parseDigit, Nat.shiftLeft_eq]

/-- Packing onto the number `a` is the parse from `a`, both wrapped to 64 bits. -/
theorem foldl_shiftIn_eq_ofNat (d : List Bool) (a : Nat) :
    d.foldl (fun (field : Data) b => field <<< 1 ||| (BitVec.ofBool b).setWidth 64) (BitVec.ofNat 64 a) =
      BitVec.ofNat 64 (d.foldl parseDigit a) := by
  induction d generalizing a with
  | nil => rfl
  | cons b bs ih =>
    have hstep : BitVec.ofNat 64 (parseDigit (BitVec.ofNat 64 a).toNat b) = BitVec.ofNat 64 (parseDigit a b) := by
      apply BitVec.eq_of_toNat_eq
      simp [parseDigit, Nat.add_mod, Nat.mul_mod]
    rw [List.foldl_cons, shiftLeft_or_ofBool, hstep, ih, List.foldl_cons]

/-- The packed field is the number of its digits. -/
theorem pack_eq_ofNat (d : List Bool) : pack d = BitVec.ofNat 64 (digitsValue d) := foldl_shiftIn_eq_ofNat d 0

theorem pack_toNat {d : List Bool} (hd : d.length ≤ 64) : (pack d).toNat = digitsValue d := by
  have hlt : digitsValue d < 2 ^ 64 := (digitsValue_lt d).trans_le (Nat.pow_le_pow_right (by decide) hd)
  rw [pack_eq_ofNat, BitVec.toNat_ofNat, Nat.mod_eq_of_lt hlt]

/-- The digits of the number that a string spells are the string. -/
theorem digitsOf_digitsValue (d : List Bool) : digitsOf (digitsValue d) d.length = d := by
  refine List.ext_getElem (digitsOf_length _ _) fun i hi hid => ?_
  have hlt : d.length - 1 - i < d.length := by omega
  have hback : d.length - 1 - (d.length - 1 - i) = i := by omega
  rw [digitsOf_getElem, digitsValue_testBit, hback, List.getD_eq_getElem _ _ hid, decide_eq_true hlt, Bool.true_and]

/-- The digits unpacked from a field are those of its number. -/
theorem unpack_eq_digitsOf (field : Data) (n : Nat) : unpack field n = digitsOf field.toNat n := rfl

theorem unpack_getElem? (field : Data) {n i : Nat} (hi : i < n) :
    (unpack field n)[i]? = some (field.getLsbD (n - 1 - i)) := by
  simp [unpack, hi]

/-- Unpacking inverts packing (R77). -/
theorem unpack_pack {d : List Bool} (hd : d.length ≤ 64) : unpack (pack d) d.length = d := by
  rw [unpack_eq_digitsOf, pack_toNat hd, digitsOf_digitsValue]

/-! ### The converters' commands on legal operands -/

/-- TOBITS of a value that fits its width answers the packed digits (R115). -/
theorem exec_tobits_of_lt {width : Byte} {value : Data} (hw : legalWidth width = true)
    (hv : value.toNat < 2 ^ width.toNat) (s : State) :
    exec (.tobits width value) s = .next (s.answerOk (pack (digitsOf value.toNat width.toNat))) := by
  rw [exec, execTobits, dif_pos hw, toBits, if_neg (Nat.not_le.mpr hv)]
  rfl

/-- FROMBITS of a field without stray digits answers the number of the unpacked digits (R120). -/
theorem exec_frombits_of_noStrayDigit {n : Byte} {digits : Data} (hn : legalWidth n = true)
    (hd : noStrayDigit n digits = true) (s : State) :
    exec (.frombits n digits) s = .next (s.answerOk (BitVec.ofNat 64 (digitsValue (unpack digits n.toNat)))) := by
  rw [exec, execFrombits, dif_pos ⟨hn, hd⟩]
  rfl

/-- Settles O31: the packed field is the number that the digits spell, and both commands work on that number's digits. -/
theorem packingPlacesTheDigits : Obligations.PackingPlacesTheDigits := by
  intro d nonempty hd
  have hlen : (BitVec.ofNat 8 d.length).toNat = d.length := by
    rw [BitVec.toNat_ofNat, Nat.mod_eq_of_lt (by omega)]
  have hlegal : legalWidth (BitVec.ofNat 8 d.length) = true := legalWidth_iff.mpr (hlen.symm ▸ ⟨nonempty, hd⟩)
  have hfits : (pack d).toNat < 2 ^ (BitVec.ofNat 8 d.length).toNat := by
    rw [hlen, pack_toNat hd]
    exact digitsValue_lt d
  have hstray : noStrayDigit (BitVec.ofNat 8 d.length) (pack d) = true := decide_eq_true hfits
  refine ⟨fun i hi => ?_, fun j hj => ?_, pack_toNat hd, unpack_pack hd, fun s => ⟨?_, ?_⟩⟩
  · rw [← unpack_getElem? _ hi, unpack_pack hd]
  · exact noStrayDigit_iff.mp hstray j (hlen.symm ▸ hj)
  · rw [fromBits, ← pack_eq_ofNat, exec_tobits_of_lt hlegal hfits, hlen, pack_toNat hd, digitsOf_digitsValue]
  · rw [exec_frombits_of_noStrayDigit hlegal hstray, hlen, unpack_pack hd, fromBits]

/-! ### Every state a piece of pseudocode leaves -/

/-- Wherever the piece ends, by going on or by raising any signal, the state has this property. -/
def Flow.Leaves {α : Type} (x : Flow α) (P : State → Prop) : Prop :=
  match x with
  | .go _ t => P t
  | .raised _ t => P t
  | .fault _ => True

theorem Flow.Ends.leaves {α : Type} {x : Flow α} {P Q : State → Prop} (h : x.Ends P) (hpq : ∀ t, P t → Q t) :
    x.Leaves Q := by
  cases x with
  | go _ t => exact hpq t h
  | raised _ t => exact hpq t h.2
  | fault _ => trivial

theorem Flow.Leaves.andThen {α β : Type} {x : Flow α} {f : α → State → Flow β} {P : State → Prop} (h : x.Leaves P)
    (hf : ∀ a t, P t → (f a t).Leaves P) : (x.andThen f).Leaves P := by
  cases x with
  | go a t => exact hf a t h
  | raised _ _ => exact h
  | fault _ => trivial

theorem requireCarrier_leaves {P : State → Prop} {s : State} (h : P s) : (requireCarrier s).Leaves P := by
  unfold requireCarrier
  split <;> exact h

/-- The command ends by `finish` of a piece that leaves PAYOUT as in `s`. -/
theorem exec_leaves_payOut {i : Instr} (s : State) (hq : ∀ q, i ≠ .rdreg q) (hd : i ≠ .decode) :
    ∃ x : Flow Data, exec i s = x.finish ∧ x.Leaves fun t => t.payOut = s.payOut := by
  have hcarrier : (requireCarrier s).Leaves fun t => t.payOut = s.payOut := requireCarrier_leaves rfl
  cases i with
  | init h w c =>
    refine ⟨_, rfl, ?_⟩
    split_ifs <;> exact rfl
  | adv =>
    exact ⟨_, rfl, hcarrier.andThen fun _ t ht =>
      ((advance_ends t).leaves fun u hu => hu.payOut.trans ht).andThen fun _ _ hu => hu⟩
  | wbit b =>
    exact ⟨_, rfl, hcarrier.andThen fun _ t ht =>
      ((bitWrite_ends b t).leaves fun u hu => hu.payOut.trans ht).andThen fun _ _ hu => hu⟩
  | rbit =>
    exact ⟨_, rfl, hcarrier.andThen fun _ t ht =>
      ((bitRead_ends t).leaves fun u hu => hu.payOut.trans ht).andThen fun _ _ hu => hu⟩
  | mask k => exact ⟨.go ((clrMask k ++ setMask k).setWidth 64) s, rfl, rfl⟩
  | tobits width value =>
    refine ⟨_, rfl, ?_⟩
    split
    · split <;> exact rfl
    · exact rfl
  | frombits n digits =>
    refine ⟨_, rfl, ?_⟩
    split <;> exact rfl
  | encode len =>
    refine ⟨_, rfl, hcarrier.andThen fun _ t ht => ?_⟩
    split
    · exact ht
    split
    · exact ht
    · exact ((bitWrites_ends _ (rewind t)).leaves fun u hu => hu.payOut.trans ht).andThen fun _ u hu =>
        ((writeBytes_ends _ u).leaves fun v hv => hv.payOut.trans hu).andThen fun _ _ hv => hv
  | decode => exact absurd rfl hd
  | rdreg q => exact absurd rfl (hq q)

/-- Only DECODE writes PAYOUT (20_memory.md R57, R59). -/
theorem payOut_of_exec {i : Instr} {s t : State} (hd : i ≠ .decode) (h : exec i s = .next t) : t.payOut = s.payOut := by
  by_cases hq : ∃ q, i = .rdreg q
  · obtain ⟨q, rfl⟩ := hq
    cases h
    rfl
  obtain ⟨x, hx, hleaves⟩ := exec_leaves_payOut s (not_exists.mp hq) hd
  rw [hx] at h
  rcases next_of_finish h with ⟨d, u, rfl, rfl⟩ | ⟨sig, u, rfl, rfl⟩
  · exact hleaves
  · exact hleaves

/-! ### The response -/

/-- The low byte of `STATUS` is the flags byte (10_state.md R31). -/
theorem statusReg_low_byte (s : State) : (statusReg s).extractLsb' 0 8 = flagsByte s := by
  rw [statusReg, BitVec.extractLsb'_setWidth_of_le (by decide)]
  exact BitVec.extractLsb'_append_eq_right

/-- A command's response: its flags are those of the state the command leaves, and a signal carries no result (R71). -/
theorem response_of_exec {i : Instr} {s t : State} (h : exec i s = .next t) :
    ∃ r, t.response = some r ∧ r.flags = flagsByte t ∧ (r.sig ≠ 0x00#8 → r.rdata = 0#64) := by
  by_cases hq : ∃ q, i = .rdreg q
  · obtain ⟨q, rfl⟩ := hq
    cases h
    exact ⟨_, respondQuietly_response _ s, rfl, fun hne => absurd rfl hne⟩
  · rcases respond_or_raiseSignal_of_exec (not_exists.mp hq) h with ⟨d, u, rfl⟩ | ⟨sig, u, rfl⟩
    · exact ⟨_, respond_response d u, rfl, fun hne => absurd rfl hne⟩
    · exact ⟨_, raiseSignal_response sig u, rfl, fun _ => rfl⟩

/-- The response word has the field layout of a command word (R70, R71). -/
theorem response_word_eq_assemble (r : Response) : r.word = assemble r.sig r.flags r.rdata := rfl

/-- Settles O51: all three ends of a command, and the end of an illegal word, write one response with the flags of the
state they leave, and no command but DECODE reaches PAYOUT. -/
theorem everyCommandGivesOneResponse : Obligations.EveryCommandGivesOneResponse := by
  refine ⟨fun w e s t hw ht => ?_, fun i s t h => ?_, fun r => ?_⟩
  · rw [acceptWord_of_illegal hw] at ht
    cases ht
    exact ⟨_, raiseSignal_response .illegalCommand s, rfl,
      (statusReg_low_byte (raiseSignal .illegalCommand s)).symm, rfl, rfl⟩
  · obtain ⟨r, hr, hflags, hdata⟩ := response_of_exec h
    exact ⟨r, hr, hflags.trans (statusReg_low_byte t).symm, hdata, fun hd => payOut_of_exec hd h⟩
  · rw [response_word_eq_assemble]
    exact ⟨opField_assemble .., auxField_assemble .., dataField_assemble ..⟩

end Sys2Proof.Machine

/-! PROOFS. The mask and bit family: MASK, and the bit writer and bit reader at the end of the traversal
(41_mask_bit_io.md R100, R104, R108). -/

namespace Sys2Proof.Machine

/-! ### The last slot-in-time -/

/-- The cursor stands at the last slot of plane 7 and is not exhausted (40_cursor_walker.md R94). -/
structure AtLastSlot (s : State) : Prop where
  exh : s.exh = false
  row : s.row + 1 = s.height
  col : s.col + 1 = s.width
  ch : s.ch + 1 = s.channels
  k : s.k = 7

theorem AtLastSlot.cursorInRange {s : State} (h : AtLastSlot s) : CursorInRange s :=
  ⟨h.row ▸ Nat.lt_succ_self _, h.col ▸ Nat.lt_succ_self _, h.ch ▸ Nat.lt_succ_self _⟩

/-- The cells have no part in where the cursor stands. -/
theorem AtLastSlot.withGrid {s : State} (h : AtLastSlot s) (g : Memory) : AtLastSlot (s.withGrid g) :=
  ⟨h.exh, h.row, h.col, h.ch, h.k⟩

/-- Of the three ways an advance ends, only exhaustion is left: the plane has no next slot, and there is no next plane. -/
theorem advance_of_atLastSlot {s : State} (h : AtLastSlot s) : advance s = .raised .capacityExhausted s.exhausted := by
  rcases advance_cases h.cursorInRange h.exh with ⟨t, -, ht, hnext, -, hst⟩ | ⟨-, hk, -⟩ | ⟨-, -, hadv⟩
  · have hlast : s.slotIndex + 1 = s.capacity := slot_last h.row h.col h.ch
    have hcap : t.capacity = s.capacity := (congrArg State.capacity hst).trans rfl
    have hlt := slotIndex_lt ht
    omega
  · exact absurd h.k hk
  · exact hadv

/-- The bit is written before the advance raises, and stays (R104 (b)). -/
theorem bitWrite_of_atLastSlot {s : State} (h : AtLastSlot s) (b : Bool) :
    bitWrite b s = .raised .capacityExhausted (s.exhausted.withGrid (wroteBit s b)) :=
  (bitWrite_of_inRange h.cursorInRange h.exh b).trans (advance_of_atLastSlot (h.withGrid _))

/-- The advance raises before the bit is returned (R108 (b)). -/
theorem bitRead_of_atLastSlot {s : State} (h : AtLastSlot s) : bitRead s = .raised .capacityExhausted s.exhausted := by
  rw [bitRead_of_inRange h.cursorInRange h.exh, advance_of_atLastSlot h, andThen_raised]

/-! ### WBIT and RBIT when their bit operation raises -/

/-- WBIT ends with the signal its bit write raised, in the state it left (60_exceptions.md R165). -/
theorem exec_wbit_of_raised {b : Bool} {s t : State} {sig : Signal} (hv : s.valid = true)
    (h : bitWrite b s = .raised sig t) : exec (.wbit b) s = .next (t.answerSignal sig.code) := by
  rw [exec, execWbit, requireCarrier_of_valid hv, andThen_go, h, andThen_raised]
  rfl

/-- RBIT ends with the signal its bit read raised, in the state it left. -/
theorem exec_rbit_of_raised {s t : State} {sig : Signal} (hv : s.valid = true) (h : bitRead s = .raised sig t) :
    exec .rbit s = .next (t.answerSignal sig.code) := by
  rw [exec, execRbit, requireCarrier_of_valid hv, andThen_go, h, andThen_raised]
  rfl

/-! ### What the bit writer does to the cells -/

theorem read_wroteBit_slotIndex_getLsbD (s : State) (b : Bool) (j : Nat) :
    (Memory.read (wroteBit s b) s.slotIndex).getLsbD j =
      if j = s.k.toNat then b else (Memory.read s.grid s.slotIndex).getLsbD j := by
  rw [read_wroteBit, if_pos rfl, putBit_getLsbD]

theorem read_wroteBit_of_ne {s : State} {a : Nat} (ha : a ≠ s.slotIndex) (b : Bool) :
    Memory.read (wroteBit s b) a = Memory.read s.grid a := by
  rw [read_wroteBit, if_neg ha]

/-- Settles O23: on an exhausted cursor the bit writer raises at once; at the last slot-in-time it writes its bit, and its
advance raises. -/
theorem wbitAndExhaustion : Obligations.WbitAndExhaustion := by
  refine fun b s hv => ⟨fun hx => exec_wbit_of_raised hv (bitWrite_of_exh hx b), fun hx hr hc hh hk => ?_⟩
  refine ⟨wroteBit s b, exec_wbit_of_raised hv (bitWrite_of_atLastSlot ⟨hx, hr, hc, hh, hk⟩ b), fun j => ?_,
    fun a ha => read_wroteBit_of_ne ha b⟩
  have hbit := read_wroteBit_slotIndex_getLsbD s b j
  rwa [hk] at hbit

/-- Settles O25: on an exhausted cursor the bit reader raises at once; at the last slot-in-time its advance raises. -/
theorem rbitAndExhaustion : Obligations.RbitAndExhaustion :=
  fun _ hv => ⟨fun hx => exec_rbit_of_raised hv (bitRead_of_exh hx), fun hx hr hc hh hk =>
    exec_rbit_of_raised hv (bitRead_of_atLastSlot ⟨hx, hr, hc, hh, hk⟩)⟩

/-! ### MASK -/

/-- A word that decodes to no command at any parameters raises IllegalCommand in every state. -/
theorem raisesIllegal_of_decodeCommand {w : CommandWord} {e : DecodeError} (h : ∀ p, decodeCommand p w = .illegal e) :
    RaisesIllegal w :=
  fun s => acceptWord_of_illegal (h s.params)

/-- What is above bit 2 being zero, the byte is below 8. -/
theorem toNat_lt_of_high_zero {aux : Byte} (h : aux.extractLsb' 3 5 = 0#5) : aux.toNat < 8 := by
  rw [← setWidth_low_of_high_zero h, BitVec.toNat_setWidth_of_le (by decide)]
  exact BitVec.isLt _

/-- MASK's must-be-zero fields are `aux[7:3]` and `data` (30_encoding.md R73, R80 (b)). -/
theorem decodeMask_of_nonzero {aux : Byte} {data : Data} (h : 8 ≤ aux.toNat ∨ data ≠ 0#64) :
    decodeMask aux data = .illegal .nonzeroField := by
  refine if_neg fun ⟨haux, hdata⟩ => ?_
  exact h.elim (Nat.not_le.mpr (toNat_lt_of_high_zero haux)) (absurd hdata)

theorem encodeCommand_mask (p : Params) (k : BitVec 3) :
    encodeCommand p (.mask k) = 0x05#8 ++ 0#5 ++ k ++ 0#64 := by
  change assemble 0x05#8 (k.setWidth 8) 0#64 = _
  revert k
  decide

/-- The pair stands in the low 16 bits of `rdata` (R100). -/
theorem maskPair_setWidth (k : BitVec 3) :
    (clrMask k ++ setMask k).setWidth 64 = 0#48 ++ clrMask k ++ setMask k := by
  revert k
  decide

/-- MASK has one end in every state, whatever its registers hold (R100). -/
theorem exec_mask (k : BitVec 3) (s : State) :
    exec (.mask k) s = .next (s.answerOk (0#48 ++ clrMask k ++ setMask k)) := by
  rw [exec, execMask, maskPair_setWidth]
  rfl

/-- Settles O15: MASK's one end answers the pair, and a word of its `op` with a 1 in a must-be-zero field does not decode. -/
theorem maskAnswersThePair : Obligations.MaskAnswersThePair :=
  fun k s => ⟨encodeCommand_mask s.params k, exec_mask k s, fun _ _ h =>
    raisesIllegal_of_decodeCommand fun p => (decodeCommand_assemble p ..).trans (decodeMask_of_nonzero h)⟩

end Sys2Proof.Machine

/-! PROOFS. The converter family: `to_bits` and `from_bits`, and their commands TOBITS and FROMBITS (42_converters.md R115,
R120). -/

namespace Sys2Proof.Machine

/-! ### A number's digits spell the number -/

/-- The digits of a value are the base-2 digits of what is left of it below `2^w`. -/
theorem digitsValue_digitsOf (v w : Nat) : digitsValue (digitsOf v w) = v % 2 ^ w := by
  induction w with
  | zero => exact (Nat.mod_one v).symm
  | succ w ih =>
    rw [digitsOf_succ, digitsValue_cons, digitsOf_length, ih, Nat.toNat_testBit, Nat.mod_pow_succ]
    ring

/-- A value that fits its width is spelled by its digits. -/
theorem digitsValue_digitsOf_of_lt {v w : Nat} (h : v < 2 ^ w) : digitsValue (digitsOf v w) = v := by
  rw [digitsValue_digitsOf, Nat.mod_eq_of_lt h]

/-- Packing the digits of a field's number gives the field back (R77). -/
theorem pack_digitsOf_toNat {value : Data} {w : Nat} (h : value.toNat < 2 ^ w) : pack (digitsOf value.toNat w) = value := by
  rw [pack_eq_ofNat, digitsValue_digitsOf_of_lt h, BitVec.ofNat_toNat, BitVec.setWidth_eq]

theorem digitsOf_getElem? (v : Nat) {w i : Nat} (hi : i < w) : (digitsOf v w)[i]? = some (v.testBit (w - 1 - i)) := by
  rw [List.getElem?_eq_getElem (by rwa [digitsOf_length]), digitsOf_getElem]

/-! ### TOBITS -/

theorem toBits_of_lt {value width : Nat} (positive : 1 ≤ width) (h : value < 2 ^ width) :
    toBits value width positive = .digits (digitsOf value width) :=
  if_neg (Nat.not_le.mpr h)

theorem toBits_of_le {value width : Nat} (positive : 1 ≤ width) (h : 2 ^ width ≤ value) :
    toBits value width positive = .raised .valueTooLarge :=
  if_pos h

/-- TOBITS of a value too large for its width raises ValueTooLarge and changes nothing more (R115). -/
theorem exec_tobits_of_le {width : Byte} {value : Data} (hw : legalWidth width = true)
    (hv : 2 ^ width.toNat ≤ value.toNat) (s : State) : exec (.tobits width value) s = .next (s.answerSignal 0x04#8) := by
  rw [exec, execTobits, dif_pos hw, toBits_of_le (legalWidth_pos hw) hv]
  rfl

/-- A width of 0 or above 64 is not legal (30_encoding.md R80 (c)). -/
theorem not_legalWidth {n : Byte} (h : n.toNat = 0 ∨ 64 < n.toNat) : ¬ legalWidth n = true := by
  rw [legalWidth_iff]
  omega

/-- Settles O28: `to_bits` decides on the width and answers the value's digits; TOBITS packs them, which gives the value
back, and its decoder checks the width. -/
theorem tobitsChecksTheWidth : Obligations.TobitsChecksTheWidth := by
  refine ⟨fun value width positive => ⟨toBits_of_le positive, fun hlt => ?_⟩, fun width value => ⟨fun _ => rfl, ?_, ?_⟩⟩
  · refine ⟨_, toBits_of_lt positive hlt, digitsOf_length value width, fun i hi => ?_⟩
    rw [digitsOf_getElem? value hi, Nat.testBit_eq_decide_div_mod_eq]
  · intro positive hle s
    have hlegal : legalWidth width = true := legalWidth_iff.mpr ⟨positive, hle⟩
    refine ⟨fun hlt => ⟨?_, _, toBits_of_lt positive hlt, pack_digitsOf_toNat hlt⟩, fun hge => exec_tobits_of_le hlegal hge s⟩
    rw [exec_tobits_of_lt hlegal hlt, pack_digitsOf_toNat hlt]
  · exact fun hwidth => raisesIllegal_of_decodeCommand fun p =>
      (decodeCommand_assemble p ..).trans (if_neg (not_legalWidth hwidth))

/-! ### FROMBITS -/

/-- `from_bits` of one digit more doubles the number and adds the digit (R120). -/
theorem digitsValue_append_singleton (d : List Bool) (b : Bool) : digitsValue (d ++ [b]) = digitsValue d * 2 + b.toNat :=
  List.foldl_concat ..

/-- The digits unpacked from a field without stray digits spell the field's number (R77, R120). -/
theorem digitsValue_unpack {n : Byte} {digits : Data} (h : noStrayDigit n digits = true) :
    digitsValue (unpack digits n.toNat) = digits.toNat := by
  rw [unpack_eq_digitsOf, digitsValue_digitsOf_of_lt (of_decide_eq_true h)]

/-- FROMBITS' value conditions are a width from 1 to 64 and no 1 at bit `n` or above (30_encoding.md R80 (c), (d)). -/
theorem decodeFrombits_of_illegal {n : Byte} {digits : Data}
    (h : n.toNat = 0 ∨ 64 < n.toNat ∨ ∃ j, n.toNat ≤ j ∧ digits.getLsbD j = true) :
    ∃ e, decodeFrombits n digits = .illegal e := by
  rcases or_assoc.mpr h with hwidth | ⟨j, hj, hbit⟩
  · exact ⟨.widthRange, if_neg (not_legalWidth hwidth)⟩
  · have hstray : ¬ noStrayDigit n digits = true := fun hno =>
      absurd hbit (Bool.eq_false_iff.mp (noStrayDigit_iff.mp hno j hj))
    rw [decodeFrombits, if_neg hstray]
    split <;> exact ⟨_, rfl⟩

/-- Settles O29: the parse goes digit by digit; the digits unpacked from a legal field spell its number, which FROMBITS
answers, and its decoder checks the width and the stray digits. -/
theorem frombitsSpellsTheField : Obligations.FrombitsSpellsTheField := by
  refine ⟨fun b _ => ?_, fun d b _ _ => digitsValue_append_singleton d b, fun n digits => ⟨fun _ => rfl, ?_, fun h => ?_⟩⟩
  · exact (digitsValue_append_singleton [] b).trans (Nat.zero_add _)
  · intro hpos hle hzero
    have hstray : noStrayDigit n digits = true := noStrayDigit_iff.mpr hzero
    refine ⟨⟨(unpack_length digits n.toNat).symm ▸ hpos, (digitsValue_unpack hstray).symm⟩, fun s => ?_⟩
    rw [exec_frombits_of_noStrayDigit (legalWidth_iff.mpr ⟨hpos, hle⟩) hstray, digitsValue_unpack hstray,
      BitVec.ofNat_toNat, BitVec.setWidth_eq]
  · obtain ⟨e, he⟩ := decodeFrombits_of_illegal h
    exact raisesIllegal_of_decodeCommand fun p => (decodeCommand_assemble p ..).trans he

end Sys2Proof.Machine

/-! PROOFS. The frame family: what the bit loops do from a stream position on (20_memory.md R67, 40_cursor_walker.md R95),
the ends of ENCODE and DECODE, and the round trip (43_frame_codec.md R134, R140, R141). -/

namespace Sys2Proof.Machine

/-! ### One slot of the stream -/

/-- Below the last slot-in-time an advance goes to the next stream position (R95): the next slot of the plane, or the first
slot of the next plane. -/
theorem advance_of_streamPos_lt {s : State} (h : CursorInRange s) (hx : s.exh = false)
    (hn : s.streamPos + 1 < 8 * s.capacity) : advance s = .go () (s.atStream (s.streamPos + 1)) := by
  rcases advance_cases h hx with ⟨t, hadv, ht, hslot, hk, hst⟩ | ⟨hslot, hk, hadv⟩ | ⟨hslot, hk, -⟩
  · have hcap : t.capacity = s.capacity := (congrArg State.capacity hst).trans rfl
    have hpos : t.streamPos = s.streamPos + 1 := by
      rw [State.streamPos, State.streamPos, hslot, hk, hcap, Nat.add_assoc]
    have hcursor : t = { s with row := t.row, col := t.col, ch := t.ch, k := t.k, exh := t.exh } := by
      rw [hst]
    have hexh : t.exh = false := (congrArg State.exh hst).trans hx
    rw [hadv, ← hpos, ← atStream_eq ht hexh hcursor]
  · have hpos : s.streamPos + 1 = (s.k.toNat + 1) * s.capacity := by
      rw [State.streamPos, Nat.add_assoc, hslot, Nat.succ_mul]
    have hdiv : (s.streamPos + 1) / s.capacity = s.k.toNat + 1 := by
      rw [hpos, Nat.mul_div_cancel _ (capacity_pos h)]
    have hmod : (s.streamPos + 1) % s.capacity = 0 := by rw [hpos, Nat.mul_mod_left]
    have hknext : BitVec.ofNat 3 (s.k.toNat + 1) = s.k + 1 := by
      rw [BitVec.ofNat_add, BitVec.ofNat_toNat, BitVec.setWidth_eq]
      rfl
    rw [hadv, State.atStream, hdiv, hmod, hknext]
    simp [hx]
  · have hpos : s.streamPos + 1 = 7 * s.capacity + s.capacity := by
      rw [State.streamPos, hk, Nat.add_assoc, hslot]
      rfl
    omega

theorem advance_atStream {s : State} {n : Nat} (hn : n + 1 < 8 * s.capacity) :
    advance (s.atStream n) = .go () (s.atStream (n + 1)) := by
  have hpos : (s.atStream n).streamPos = n := streamPos_atStream (by omega)
  have hrange : CursorInRange (s.atStream n) := cursorInRange_atStream (by omega)
  rw [advance_of_streamPos_lt hrange rfl (by rwa [hpos]), hpos, atStream_atStream]

/-- The bit writer at stream position `n` (R103). -/
theorem bitWrite_atStream {s : State} {n : Nat} (hn : n + 1 < 8 * s.capacity) (b : Bool) :
    bitWrite b (s.atStream n) = .go () ((s.withGrid (wroteBit (s.atStream n) b)).atStream (n + 1)) :=
  (bitWrite_of_inRange (cursorInRange_atStream (by omega)) rfl b).trans
    (advance_atStream (s := s.withGrid (wroteBit (s.atStream n) b)) hn)

/-- The bit reader at stream position `n` returns the stream bit (R107). -/
theorem bitRead_atStream {s : State} {n : Nat} (hn : n + 1 < 8 * s.capacity) :
    bitRead (s.atStream n) = .go (streamBit s.grid s.capacity n) (s.atStream (n + 1)) := by
  rw [bitRead_of_inRange (cursorInRange_atStream (by omega)) rfl, advance_atStream hn, andThen_go, getBit_eq_getLsbD,
    slotIndex_atStream, k_atStream (by omega), State.atStream_grid, streamBit]

/-! ### The write loops -/

/-- The grid after bits have been written in turn from stream position `n` on. -/
def wroteBits : List Bool → Nat → State → Memory
  | [], _, s => s.grid
  | b :: bs, n, s => wroteBits bs (n + 1) (s.withGrid (wroteBit (s.atStream n) b))

theorem bitWrites_atStream {bs : List Bool} {n : Nat} {s : State} (h : n + bs.length < 8 * s.capacity) :
    bitWrites bs (s.atStream n) = .go () ((s.atStream (n + bs.length)).withGrid (wroteBits bs n s)) := by
  induction bs generalizing n s with
  | nil => rfl
  | cons b bs ih =>
    rw [List.length_cons] at h
    rw [bitWrites, bitWrite_atStream (by omega), andThen_go, ih (by rw [withGrid_capacity]; omega), List.length_cons,
      Nat.add_comm bs.length 1, ← Nat.add_assoc]
    rfl

theorem bitWrites_append (bs cs : List Bool) (s : State) :
    bitWrites (bs ++ cs) s = (bitWrites bs s).andThen fun _ t => bitWrites cs t := by
  induction bs generalizing s with
  | nil => rfl
  | cons b bs ih =>
    rw [List.cons_append, bitWrites, bitWrites]
    cases bitWrite b s with
    | go _ t => exact ih t
    | raised _ _ => rfl
    | fault _ => rfl

/-- The payload loop writes the payload's part of the frame (R131, R142). -/
theorem writeBytes_eq_bitWrites (p : List Byte) (s : State) :
    writeBytes p s = bitWrites (p.flatMap fun v => digitsOf v.toNat 8) s := by
  induction p generalizing s with
  | nil => rfl
  | cons v vs ih =>
    rw [writeBytes, writeInteger_byte, List.flatMap_cons, bitWrites_append]
    simp only [ih]

/-- The bit writes of a frame are those of its length, then those of its bytes (R142). -/
theorem bitWrites_frame (p : List Byte) (s : State) :
    bitWrites (frame p) s = (bitWrites (digitsOf p.length 64) s).andThen fun _ t => writeBytes p t := by
  rw [frame, bitWrites_append]
  simp only [writeBytes_eq_bitWrites]

/-! ### What the write loops do to the stream -/

/-- Two positions are in the same bit of the same cell only if they are one position (R67). -/
theorem eq_of_mod_eq_of_div_eq {c m n : Nat} (hmod : m % c = n % c) (hdiv : m / c = n / c) : m = n := by
  rw [← Nat.div_add_mod m c, hmod, hdiv, Nat.div_add_mod]

/-- A bit written at position `n` is stream bit `n`, and every other stream bit is as before. -/
theorem streamBit_wroteBit {s : State} {n : Nat} (hn : n < 8 * s.capacity) (b : Bool) (m : Nat) :
    streamBit (wroteBit (s.atStream n) b) s.capacity m = if m = n then b else streamBit s.grid s.capacity m := by
  rw [streamBit, read_wroteBit, slotIndex_atStream, State.atStream_grid]
  by_cases hmod : m % s.capacity = n % s.capacity
  · rw [if_pos hmod, putBit_getLsbD, k_atStream hn, ← hmod, streamBit]
    by_cases hdiv : m / s.capacity = n / s.capacity
    · rw [if_pos hdiv, if_pos (eq_of_mod_eq_of_div_eq hmod hdiv)]
    · rw [if_neg hdiv, if_neg fun hmn => hdiv (congrArg (· / s.capacity) hmn)]
  · rw [if_neg hmod, if_neg fun hmn => hmod (congrArg (· % s.capacity) hmn), streamBit]

/-- Bits written from position `n` on leave the stream before `n` alone. -/
theorem streamBit_wroteBits_of_lt {bs : List Bool} {n m : Nat} {s : State} (h : n + bs.length ≤ 8 * s.capacity)
    (hm : m < n) : streamBit (wroteBits bs n s) s.capacity m = streamBit s.grid s.capacity m := by
  induction bs generalizing n s with
  | nil => rfl
  | cons b bs ih =>
    rw [List.length_cons] at h
    have hrest := ih (s := s.withGrid (wroteBit (s.atStream n) b)) (by rw [withGrid_capacity]; omega)
      (Nat.lt_succ_of_lt hm)
    exact hrest.trans ((streamBit_wroteBit (by omega) b m).trans (if_neg hm.ne))

/-- Bits written from position `n` on stand in the stream from `n` on, and after them it is as before. -/
theorem streamBit_wroteBits_add {bs : List Bool} {n : Nat} {s : State} (h : n + bs.length ≤ 8 * s.capacity) (i : Nat) :
    streamBit (wroteBits bs n s) s.capacity (n + i) = bs.getD i (streamBit s.grid s.capacity (n + i)) := by
  induction bs generalizing n i s with
  | nil => rfl
  | cons b bs ih =>
    rw [List.length_cons] at h
    have hlt : n + 1 + bs.length ≤ 8 * (s.withGrid (wroteBit (s.atStream n) b)).capacity := by
      rw [withGrid_capacity]
      omega
    cases i with
    | zero =>
      exact (streamBit_wroteBits_of_lt hlt (Nat.lt_succ_self n)).trans
        ((streamBit_wroteBit (by omega) b n).trans (if_pos rfl))
    | succ i =>
      have hpos : n + (i + 1) = n + 1 + i := by omega
      have hrest := ih hlt i
      rw [State.withGrid_grid, withGrid_capacity, streamBit_wroteBit (by omega), if_neg (by omega)] at hrest
      rw [wroteBits, hpos, hrest, List.getD_cons_succ]

/-- The write loops reach no cell outside the carrier (R54). -/
theorem read_wroteBits_of_le {bs : List Bool} {n a : Nat} {s : State} (hc : 0 < s.capacity) (ha : s.capacity ≤ a) :
    Memory.read (wroteBits bs n s) a = Memory.read s.grid a := by
  induction bs generalizing n s with
  | nil => rfl
  | cons b bs ih =>
    have hslot : a ≠ (s.atStream n).slotIndex := by
      rw [slotIndex_atStream]
      exact ((Nat.mod_lt n hc).trans_le ha).ne'
    exact (ih (s := s.withGrid (wroteBit (s.atStream n) b)) hc ha).trans (read_wroteBit_of_ne hslot b)

/-- Bit `j` of a cell of the carrier is the stream bit at its slot in plane `j` (R67). -/
theorem getLsbD_read_eq_streamBit (m : Memory) {c a : Nat} (ha : a < c) (j : Nat) :
    (Memory.read m a).getLsbD j = streamBit m c (c * j + a) := by
  rw [streamBit, Nat.mul_add_mod, Nat.mod_eq_of_lt ha, Nat.mul_add_div (Nat.zero_lt_of_lt ha), Nat.div_eq_of_lt ha,
    Nat.add_zero]

/-- In plane 0 the stream goes through bit 0 of the cells in slot order (20_memory.md R55). -/
theorem streamBit_of_lt (m : Memory) {c n : Nat} (hn : n < c) : streamBit m c n = (Memory.read m n).getLsbD 0 := by
  rw [getLsbD_read_eq_streamBit m hn, Nat.mul_zero, Nat.zero_add]

/-! ### The read loops -/

/-- `n` bit reads from stream position `m` on return the stream bits and leave the cells (R136). -/
theorem bitReads_atStream {s : State} {n m : Nat} (h : m + n < 8 * s.capacity) :
    bitReads n (s.atStream m) =
      .go ⟨(List.range n).map fun i => streamBit s.grid s.capacity (m + i), by simp⟩ (s.atStream (m + n)) := by
  induction n generalizing m with
  | zero => rfl
  | succ n ih =>
    rw [bitReads, bitRead_atStream (by omega), andThen_go, ih (by omega), andThen_go]
    simp [List.range_succ_eq_map, Function.comp_def, Nat.add_assoc, Nat.add_comm 1]

/-- The payload loop from the start of byte `j` on returns the bytes that the stream holds (R136). -/
theorem readBytes_atStream {s : State} {n j : Nat} (h : 64 + 8 * (j + n) < 8 * s.capacity) :
    readBytes n (s.atStream (64 + 8 * j)) =
      .go ((List.range' j n).map (streamByte s.grid s.capacity)) (s.atStream (64 + 8 * (j + n))) := by
  induction n generalizing j with
  | zero => rfl
  | succ n ih =>
    have hnext : 64 + 8 * j + 8 = 64 + 8 * (j + 1) := by omega
    have hend : j + 1 + n = j + (n + 1) := by omega
    rw [readBytes, bitReads_atStream (n := 8) (by omega), andThen_go, hnext, ih (by omega), andThen_go, hend]
    rfl

/-! ### The ends of ENCODE -/

/-- The payload that ENCODE reads has the length of its operand, whatever the host supplied. -/
@[simp] theorem payload_length (payIn : List Byte) (len : Nat) : (payload payIn len).length = len := by simp [payload]

/-- A payload the host supplied whole is read as it is (20_memory.md R56). -/
theorem payload_of_length_eq {payIn : List Byte} {len : Nat} (h : payIn.length = len) : payload payIn len = payIn := by
  refine List.ext_getElem (by rw [payload_length, h]) fun i hi hip => ?_
  simp [payload, payByte, hip]

theorem frame_length (p : List Byte) : (frame p).length = 64 + 8 * p.length := by
  simp [frame, Nat.mul_comm]

/-- ENCODE refuses a carrier that is too small before it changes anything (43_frame_codec.md R134, 60_exceptions.md R163). -/
theorem exec_encode_of_lt {len : Data} {s : State} (hv : s.valid = true) (hlt : s.capacity < 64 + 8 * len.toNat) :
    exec (.encode len) s = .next (s.answerSignal 0x02#8) := by
  rw [exec, execEncode, requireCarrier_of_valid hv, andThen_go, if_pos hlt]
  rfl

/-- An accepted ENCODE writes the frame from the start of the traversal on (R131). -/
theorem exec_encode_of_le {len : Data} {s : State} (hv : s.valid = true) (hle : 64 + 8 * len.toNat ≤ s.capacity) :
    exec (.encode len) s =
      .next (((s.atStream (64 + 8 * len.toNat)).withGrid
        (wroteBits (frame (payload s.payIn len.toNat)) 0 s)).answerOk len) := by
  have hlen := frame_length (payload s.payIn len.toNat)
  rw [payload_length] at hlen
  have hwrites := bitWrites_atStream (bs := frame (payload s.payIn len.toNat)) (n := 0) (s := s) (by omega)
  rw [hlen, Nat.zero_add, ← rewind_eq_atStream, bitWrites_frame, payload_length] at hwrites
  rw [exec, execEncode, requireCarrier_of_valid hv, andThen_go, if_neg (Nat.not_lt.mpr hle), toBits_of_lt _ len.isLt]
  obtain ⟨_, t, hprefix, hpayload⟩ := go_of_andThen hwrites
  have hends := bitWrites_ends (digitsOf len.toNat 64) (rewind s)
  rw [hprefix] at hends
  have hpay : t.payIn = s.payIn := hends.payIn
  dsimp only
  rw [hprefix, andThen_go, hpay, hpayload]
  rfl

/-- Settles O32: both ends of ENCODE, by the side of the boundary the carrier is on. -/
theorem encodeCapacityBoundary : Obligations.EncodeCapacityBoundary := by
  intro len s hv
  rcases Nat.lt_or_ge s.capacity (64 + 8 * len.toNat) with hlt | hle
  · refine ⟨_, _, exec_encode_of_lt hv hlt, State.answerSignal_response .., ?_, ?_⟩
    · exact iff_of_false (by simp) (Nat.not_le.mpr hlt)
    · exact iff_of_true rfl hlt
  · refine ⟨_, _, exec_encode_of_le hv hle, State.answerOk_response .., ?_, ?_⟩
    · exact iff_of_true rfl hle
    · exact iff_of_false (by simp) (Nat.not_lt.mpr hle)

/-! ### The end of DECODE -/

/-- DECODE of a grid that holds as many bytes as its stream says ends `OK` with those bytes in PAYOUT (R136). -/
theorem exec_decode_of_le {s : State} (hv : s.valid = true) (hle : streamLength s.grid s.capacity + 9 ≤ s.capacity) :
    exec .decode s =
      .next (((s.atStream (64 + 8 * streamLength s.grid s.capacity)).withPayOut
        ((List.range (streamLength s.grid s.capacity)).map (streamByte s.grid s.capacity))).answerOk
        (BitVec.ofNat 64 (streamLength s.grid s.capacity))) := by
  have hprefix := bitReads_atStream (s := s) (n := 64) (m := 0) (by omega)
  have hbytes := readBytes_atStream (s := s) (n := streamLength s.grid s.capacity) (j := 0) (by omega)
  rw [← rewind_eq_atStream] at hprefix
  rw [← List.range_eq_range'] at hbytes
  simp only [Nat.zero_add] at hprefix hbytes
  rw [exec, execDecode, requireCarrier_of_valid hv, andThen_go, hprefix, andThen_go]
  change ((((readBytes (streamLength s.grid s.capacity) (s.atStream 64)).andThen _).surfaceTruncation).finish) = _
  rw [hbytes, andThen_go]
  rfl

/-! ### The stream of a frame -/

/-- The digits of byte `j` of a payload stand from bit `8*j` of its part of the frame on (R142). -/
theorem flatMap_digitsOf_getElem? {p : List Byte} {j i : Nat} {v : Byte} (hj : p[j]? = some v) (hi : i < 8) :
    (p.flatMap fun v => digitsOf v.toNat 8)[8 * j + i]? = (digitsOf v.toNat 8)[i]? := by
  induction p generalizing j with
  | nil => cases hj
  | cons w ws ih =>
    cases j with
    | zero =>
      cases hj
      rw [List.flatMap_cons, Nat.mul_zero, Nat.zero_add, List.getElem?_append_left (by rwa [digitsOf_length])]
    | succ j =>
      have hle : (digitsOf w.toNat 8).length ≤ 8 * (j + 1) + i := by rw [digitsOf_length]; omega
      have hsub : 8 * (j + 1) + i - (digitsOf w.toNat 8).length = 8 * j + i := by rw [digitsOf_length]; omega
      rw [List.flatMap_cons, List.getElem?_append_right hle, hsub, ih hj]

theorem frame_getElem?_of_lt {p : List Byte} {n : Nat} (hn : n < 64) : (frame p)[n]? = (digitsOf p.length 64)[n]? :=
  List.getElem?_append_left (by rwa [digitsOf_length])

theorem frame_getElem?_byte {p : List Byte} {j i : Nat} {v : Byte} (hj : p[j]? = some v) (hi : i < 8) :
    (frame p)[64 + 8 * j + i]? = (digitsOf v.toNat 8)[i]? := by
  have hle : (digitsOf p.length 64).length ≤ 64 + 8 * j + i := by rw [digitsOf_length]; omega
  have hsub : 64 + 8 * j + i - (digitsOf p.length 64).length = 8 * j + i := by rw [digitsOf_length]; omega
  rw [frame, List.getElem?_append_right hle, hsub, flatMap_digitsOf_getElem? hj hi]

/-- The stream of these cells begins with the frame of this payload. -/
def StreamHasFrame (m : Memory) (c : Nat) (p : List Byte) : Prop :=
  ∀ n, n < 64 + 8 * p.length → (frame p)[n]? = some (streamBit m c n)

/-- Bits that are the digits of `v`, most significant first, are those digits. -/
theorem map_range_eq_digitsOf {f : Nat → Bool} {v w : Nat} (h : ∀ i, i < w → (digitsOf v w)[i]? = some (f i)) :
    (List.range w).map f = digitsOf v w := by
  refine List.ext_getElem (by simp) fun i hi hid => ?_
  rw [digitsOf_length] at hid
  rw [List.getElem_map, List.getElem_range, ← Option.some_inj, ← h i hid, List.getElem?_eq_getElem]

theorem streamLength_of_frame {m : Memory} {c : Nat} {p : List Byte} (h : StreamHasFrame m c p)
    (hp : p.length < 2 ^ 64) : streamLength m c = p.length := by
  have hdigits : (List.range 64).map (streamBit m c) = digitsOf p.length 64 :=
    map_range_eq_digitsOf fun i hi => (frame_getElem?_of_lt hi).symm.trans (h i (by omega))
  rw [streamLength, hdigits, digitsValue_digitsOf_of_lt hp]

theorem streamByte_of_frame {m : Memory} {c j : Nat} {p : List Byte} {v : Byte} (h : StreamHasFrame m c p)
    (hj : p[j]? = some v) : streamByte m c j = v := by
  obtain ⟨hlt, -⟩ := List.getElem?_eq_some_iff.mp hj
  have hdigits : (List.range 8).map (fun i => streamBit m c (64 + 8 * j + i)) = digitsOf v.toNat 8 :=
    map_range_eq_digitsOf fun i hi => (frame_getElem?_byte hj hi).symm.trans (h _ (by omega))
  rw [streamByte, hdigits, digitsValue_digitsOf_of_lt v.isLt, BitVec.ofNat_toNat, BitVec.setWidth_eq]

theorem map_streamByte_of_frame {m : Memory} {c : Nat} {p : List Byte} (h : StreamHasFrame m c p) :
    (List.range p.length).map (streamByte m c) = p := by
  refine List.ext_getElem (by simp) fun j _ hj => ?_
  rw [List.getElem_map, List.getElem_range, streamByte_of_frame h (List.getElem?_eq_getElem hj)]

/-- DECODE of a grid whose stream begins with a frame delivers the frame's payload (R140). -/
theorem exec_decode_of_frame {s : State} {p : List Byte} (hv : s.valid = true) (hle : 64 + 8 * p.length ≤ s.capacity)
    (hp : p.length < 2 ^ 64) (h : StreamHasFrame s.grid s.capacity p) :
    exec .decode s =
      .next (((s.atStream (64 + 8 * p.length)).withPayOut p).answerOk (BitVec.ofNat 64 p.length)) := by
  have hlen := streamLength_of_frame h hp
  rw [exec_decode_of_le hv (by omega), hlen, map_streamByte_of_frame h]

/-! ### The round trip -/

/-- The stream of the grid that ENCODE leaves begins with the frame it wrote. -/
theorem streamHasFrame_wroteBits {s : State} {p : List Byte} (hle : 64 + 8 * p.length ≤ s.capacity) :
    StreamHasFrame (wroteBits (frame p) 0 s) s.capacity p := by
  intro n hn
  have hlen := frame_length p
  have hbit := streamBit_wroteBits_add (bs := frame p) (n := 0) (s := s) (by omega) n
  rw [Nat.zero_add] at hbit
  rw [hbit, List.getD_eq_getElem _ _ (by omega), List.getElem?_eq_getElem (by omega)]

/-- A frame lies in plane 0: cells alike in bit 0 hold it alike (R140). -/
theorem StreamHasFrame.congr {m m' : Memory} {c : Nat} {p : List Byte} (h : StreamHasFrame m c p)
    (hle : 64 + 8 * p.length ≤ c)
    (hbit : ∀ a, a < 64 + 8 * p.length → (Memory.read m' a).getLsbD 0 = (Memory.read m a).getLsbD 0) :
    StreamHasFrame m' c p := by
  intro n hn
  rw [h n hn, streamBit_of_lt m (by omega), streamBit_of_lt m' (by omega), hbit n hn]

/-- Settles O37: ENCODE leaves the frame in the stream, the other state's stream begins with the same bits, and DECODE of a
frame delivers its payload. -/
theorem decodeOfEncodeIsThePayload : Obligations.DecodeOfEncodeIsThePayload := by
  intro len s t u hv hlen hle ht huv hh hw hc hbit
  rw [exec_encode_of_le hv hle, payload_of_length_eq hlen] at ht
  cases ht
  have hcap : u.capacity = s.capacity := capacity_congr hh hw hc
  rw [← hlen] at hle hbit
  have hframe : StreamHasFrame u.grid u.capacity s.payIn := hcap ▸ (streamHasFrame_wroteBits hle).congr hle hbit
  refine ⟨_, _, exec_decode_of_frame huv (hcap ▸ hle) (hlen ▸ len.isLt) hframe, State.answerOk_response .., rfl, rfl, ?_,
    rfl⟩
  rw [hlen, BitVec.ofNat_toNat, BitVec.setWidth_eq]

/-- The frame of the empty payload is 64 clear bits (R141). -/
theorem frame_nil : frame [] = List.replicate 64 false := by decide

/-- In 64 or more cells the 64 clear bits go to bit 0 of the first 64 and nowhere else (R141). -/
theorem read_wroteBits_frame_nil_getLsbD {s : State} (hle : 64 ≤ s.capacity) (a j : Nat) :
    (Memory.read (wroteBits (frame []) 0 s) a).getLsbD j =
      if a < 64 ∧ j = 0 then false else (Memory.read s.grid a).getLsbD j := by
  rcases Nat.lt_or_ge a s.capacity with ha | ha
  · have hbit := streamBit_wroteBits_add (bs := frame []) (n := 0) (s := s) (by rw [frame_length, List.length_nil]; omega)
      (s.capacity * j + a)
    rw [Nat.zero_add] at hbit
    rw [getLsbD_read_eq_streamBit _ ha, hbit, getLsbD_read_eq_streamBit _ ha, frame_nil]
    rcases Nat.eq_zero_or_pos j with rfl | hj
    · rcases Nat.lt_or_ge a 64 with h64 | h64
      · rw [if_pos ⟨h64, rfl⟩, Nat.mul_zero, Nat.zero_add, List.getD_replicate _ h64]
      · rw [if_neg (by omega), Nat.mul_zero, Nat.zero_add, List.getD_eq_default _ _ (by simpa using h64)]
    · have hplane : s.capacity ≤ s.capacity * j := Nat.le_mul_of_pos_right _ hj
      rw [if_neg (by omega), List.getD_eq_default _ _ (by rw [List.length_replicate]; omega)]
  · rw [read_wroteBits_of_le (by omega) ha, if_neg (by omega)]

/-- ENCODE of no byte reads nothing of PAYIN and writes the frame of the empty payload (R141). -/
theorem exec_encode_zero_of_le {s : State} (hv : s.valid = true) (hle : 64 ≤ s.capacity) :
    ∃ g, exec (.encode 0) s = .next (((s.atStream 64).withGrid g).answerOk 0#64) ∧ StreamHasFrame g s.capacity [] ∧
      ∀ a j, (Memory.read g a).getLsbD j = if a < 64 ∧ j = 0 then false else (Memory.read s.grid a).getLsbD j :=
  ⟨_, exec_encode_of_le (len := 0#64) hv hle, streamHasFrame_wroteBits hle, read_wroteBits_frame_nil_getLsbD hle⟩

/-- Settles O38: ENCODE of no byte writes the frame of the empty payload, and DECODE of that frame delivers no byte. -/
theorem emptyPayloadRoundTrip : Obligations.EmptyPayloadRoundTrip := by
  refine fun s hv => ⟨fun hlt => exec_encode_of_lt hv hlt, fun hle => ?_⟩
  obtain ⟨g, hencode, hframe, hbits⟩ := exec_encode_zero_of_le hv hle
  exact ⟨_, hencode, ⟨_, State.answerOk_response .., rfl, rfl⟩, hbits, _, _,
    exec_decode_of_frame (s := ((s.atStream 64).withGrid g).answerOk 0#64) (p := []) hv hle (by decide) hframe,
    State.answerOk_response .., rfl, rfl, rfl⟩

end Sys2Proof.Machine

/-! PROOFS. The system family: INIT and RDREG (44_system.md R150, R155). -/

namespace Sys2Proof

/-! ### INIT's word -/

theorem toNat_append_eq_mul_add {m n : Nat} (x : BitVec m) (y : BitVec n) :
    (x ++ y).toNat = x.toNat * 2 ^ n + y.toNat := by
  rw [BitVec.toNat_append, ← Nat.shiftLeft_add_eq_or_of_lt y.isLt, Nat.shiftLeft_eq]

/-- At the default widths the three dimensions fill `data`, `height` first (30_encoding.md R74). -/
theorem dimensionData_defaults (h w : BitVec 24) (c : BitVec 16) :
    dimensionData .defaults h.toNat w.toNat c.toNat = h ++ w ++ c := by
  apply BitVec.eq_of_toNat_eq
  rw [toNat_dimensionData (dimensionsFit_iff.mpr ⟨h.isLt, w.isLt, c.isLt⟩), toNat_append_eq_mul_add,
    toNat_append_eq_mul_add]
  rfl

theorem encodeCommand_init_defaults (h w : BitVec 24) (c : BitVec 16) :
    encodeCommand .defaults (.init h.toNat w.toNat c.toNat) = 0x01#8 ++ 0#8 ++ h ++ w ++ c := by
  rw [encodeCommand, dimensionData_defaults, assemble, BitVec.append_assoc', BitVec.append_assoc']
  rfl

/-- INIT's must-be-zero field is `aux` (30_encoding.md R73, R80 (b)). -/
theorem decodeInit_of_nonzero (p : Params) {aux : Byte} (data : Data) (h : aux ≠ 0#8) :
    decodeInit p aux data = .illegal .nonzeroField :=
  if_neg fun ⟨haux, _⟩ => h haux

/-! ### RDREG's word -/

theorem decodeCommand_rdreg (r : RegName) (p : Params) :
    decodeCommand p (assemble 0x0A#8 (indexOfReg r) 0#64) = .command (.rdreg r) := by
  rw [decodeCommand_assemble]
  change decodeRdreg (indexOfReg r) 0#64 = _
  rw [decodeRdreg, if_pos rfl, regOfIndex_indexOfReg]

/-- The register map ends at index 0x0A (10_state.md R35). -/
theorem regOfIndex_eq_none {idx : Byte} (h : 0x0A < idx.toNat) : regOfIndex idx = none := by
  cases hr : regOfIndex idx with
  | none => rfl
  | some q => exact absurd (indexOfReg_of_regOfIndex hr ▸ indexOfReg_le q) (Nat.not_le.mpr h)

/-- RDREG's conditions are an index of the register map and no 1 in `data` (30_encoding.md R80 (b), (e)). -/
theorem decodeRdreg_of_illegal {idx : Byte} {data : Data} (h : 0x0A < idx.toNat ∨ data ≠ 0#64) :
    ∃ e, decodeRdreg idx data = .illegal e := by
  by_cases hdata : data = 0#64
  · have hidx : regOfIndex idx = none := regOfIndex_eq_none (h.resolve_right (not_not_intro hdata))
    exact ⟨.registerIndex, by rw [decodeRdreg, if_pos hdata, hidx]⟩
  · exact ⟨.nonzeroField, if_neg hdata⟩

end Sys2Proof

namespace Sys2Proof.Machine

/-! ### What fits a 64-bit result -/

/-- A number of at most 64 bits is not cut in a 64-bit field (00_scope.md R9). -/
theorem toNat_ofNat_of_lt_two_pow {n b : Nat} (hb : b ≤ 64) (h : n < 2 ^ b) : (BitVec.ofNat 64 n).toNat = n := by
  rw [BitVec.toNat_ofNat, Nat.mod_eq_of_lt (h.trans_le (Nat.pow_le_pow_right (by decide) hb))]

/-- Dimensions that fit have a product of at most `CAP_BITS` bits, so `rdata` and `CAPACITY` hold it exactly
(00_scope.md R9, 10_state.md R32). -/
theorem capacityOf_lt {p : Params} {h w c : Nat} (f : dimensionsFit p h w c = true) : capacityOf h w c < 2 ^ 64 := by
  obtain ⟨hh, hw, hc⟩ := dimensionsFit_iff.mp f
  calc capacityOf h w c < 2 ^ p.rowBits * 2 ^ p.colBits * 2 ^ p.chBits := Nat.mul_lt_mul'' (Nat.mul_lt_mul'' hh hw) hc
    _ = 2 ^ p.capBits := by rw [Params.capBits, Nat.pow_add, Nat.pow_add]
    _ ≤ 2 ^ 64 := two_pow_capBits_le p

/-! ### INIT -/

/-- INIT of three non-zero dimensions binds the carrier (R150). -/
theorem exec_init_of_ne_zero {s : State} {h w c : Nat} (f : dimensionsFit s.params h w c = true) (hh : h ≠ 0)
    (hw : w ≠ 0) (hc : c ≠ 0) :
    exec (.init h w c) s = .next ((bindCarrier h w c s).answerOk (BitVec.ofNat 64 (capacityOf h w c))) := by
  rw [exec, execInit, if_neg (ne_false_of_eq_true f), if_neg (by simp [hh, hw, hc])]
  rfl

/-- INIT of a zero dimension unbinds the carrier and raises InvalidCarrier (R150). -/
theorem exec_init_of_zero {s : State} {h w c : Nat} (f : dimensionsFit s.params h w c = true)
    (hzero : h = 0 ∨ w = 0 ∨ c = 0) : exec (.init h w c) s = .next ((unbindCarrier s).answerSignal 0x01#8) := by
  rw [exec, execInit, if_neg (ne_false_of_eq_true f), if_pos hzero]
  rfl

/-- Settles O42: the word's fields are the dimensions at their widths, a non-zero `aux` does not decode, and INIT has one
end with a zero dimension and one without, whose capacity fits `rdata`. -/
theorem initBindsOrUnbinds : Obligations.InitBindsOrUnbinds := by
  refine ⟨fun aux data haux => ?_, encodeCommand_init_defaults, fun s h w c f =>
    ⟨fun hh hw hc => ?_, exec_init_of_zero f⟩⟩
  · exact raisesIllegal_of_decodeCommand fun p => (decodeCommand_assemble p ..).trans (decodeInit_of_nonzero p data haux)
  · exact ⟨_, toNat_ofNat_of_lt_two_pow le_rfl (capacityOf_lt f), exec_init_of_ne_zero f hh hw hc⟩

/-! ### The register map as numbers -/

/-- `STATUS[7:0]` as a number (10_state.md R31). -/
theorem flagsByte_toNat (s : State) : (flagsByte s).toNat = s.errs.toNat * 4 + s.exh.toNat * 2 + s.valid.toNat := by
  simp only [flagsByte, toNat_append_eq_mul_add, BitVec.toNat_ofBool, BitVec.toNat_ofNat]
  omega

theorem readReg_status_toNat (s : State) :
    (readReg s .status).toNat = s.lastSig.toNat * 256 + s.errs.toNat * 4 + s.exh.toNat * 2 + s.valid.toNat := by
  have hwidth : (readReg s .status).toNat = (s.lastSig ++ flagsByte s).toNat := BitVec.toNat_setWidth_of_le (by decide)
  rw [hwidth, toNat_append_eq_mul_add, flagsByte_toNat]
  omega

theorem readReg_clrMask_toNat_eq_sub (s : State) : (readReg s .clrMask).toNat = 255 - 2 ^ s.k.toNat := by
  rw [readReg_clrMask_toNat, clrMask_eq_not, BitVec.toNat_not, setMask_toNat]

/-- The product of dimensions that fit is not cut (10_state.md R32). -/
theorem readReg_capacity_toNat {s : State} (f : dimensionsFit s.params s.height s.width s.channels = true) :
    (readReg s .capacity).toNat = if s.valid then s.height * s.width * s.channels else 0 := by
  have hlt : capacityReg s < 2 ^ 64 := by
    rw [capacityReg]
    split
    · exact capacityOf_lt f
    · decide
  exact toNat_ofNat_of_lt_two_pow le_rfl hlt

/-! ### RDREG -/

/-- Settles O44: the eleven indices decode to their registers and no other index does; RDREG has one end, the quiet one,
and no register is wider than the 64 bits it answers. -/
theorem rdregReadsEveryRegister : Obligations.RdregReadsEveryRegister := by
  refine ⟨decodeCommand_rdreg, fun r s hfit => ⟨readReg s r, exec_rdreg r s, ?_⟩, fun idx data h => ?_⟩
  · obtain ⟨hheight, hwidth, hchannels, hrow, hcol, hch⟩ := hfit
    have hsum := s.params.sum_le
    cases r with
    | status => exact readReg_status_toNat s
    | height => exact toNat_ofNat_of_lt_two_pow (by omega) hheight
    | width => exact toNat_ofNat_of_lt_two_pow (by omega) hwidth
    | channels => exact toNat_ofNat_of_lt_two_pow (by omega) hchannels
    | row => exact toNat_ofNat_of_lt_two_pow (by omega) hrow
    | col => exact toNat_ofNat_of_lt_two_pow (by omega) hcol
    | ch => exact toNat_ofNat_of_lt_two_pow (by omega) hch
    | k => exact BitVec.toNat_setWidth_of_le (by decide)
    | setMask => exact (readReg_setMask_toNat s).trans (setMask_toNat s.k)
    | clrMask => exact readReg_clrMask_toNat_eq_sub s
    | capacity => exact readReg_capacity_toNat (dimensionsFit_iff.mpr ⟨hheight, hwidth, hchannels⟩)
  · obtain ⟨e, he⟩ := decodeRdreg_of_illegal h
    exact raisesIllegal_of_decodeCommand fun p => (decodeCommand_assemble p ..).trans he

end Sys2Proof.Machine

/-! PROOFS. The exceptions family: the signals each command can end with (60_exceptions.md R163, R168). -/

namespace Sys2Proof.Machine

/-! ### Which signals a piece of pseudocode can raise -/

/-- Every signal the piece raises is one of these. -/
def Flow.RaisesOnly {α : Type} (x : Flow α) (sigs : List Signal) : Prop :=
  match x with
  | .go _ _ => True
  | .raised sig _ => sig ∈ sigs
  | .fault _ => True

theorem Flow.RaisesOnly.andThen {α β : Type} {x : Flow α} {f : α → State → Flow β} {sigs : List Signal}
    (h : x.RaisesOnly sigs) (hf : ∀ a t, (f a t).RaisesOnly sigs) : (x.andThen f).RaisesOnly sigs := by
  cases x with
  | go a t => exact hf a t
  | raised _ _ => exact h
  | fault _ => trivial

theorem Flow.Ends.raisesOnly {α : Type} {x : Flow α} {P : State → Prop} {sigs : List Signal} (h : x.Ends P)
    (hmem : .capacityExhausted ∈ sigs) : x.RaisesOnly sigs := by
  cases x with
  | go _ _ => trivial
  | raised _ _ => exact h.1.symm ▸ hmem
  | fault _ => trivial

theorem requireCarrier_raisesOnly {sigs : List Signal} (s : State) (hmem : .invalidCarrier ∈ sigs) :
    (requireCarrier s).RaisesOnly sigs := by
  unfold requireCarrier
  split
  · trivial
  · exact hmem

/-- ADV, WBIT and RBIT have one shape: the carrier check, then an operation on the current slot. -/
theorem slotCommand_raisesOnly {α : Type} {f : State → Flow α} {result : α → Data} (s : State)
    (hf : ∀ t, (f t).RaisesOnly [.invalidCarrier, .capacityExhausted]) :
    ((requireCarrier s).andThen fun _ t => (f t).andThen fun a u => .go (result a) u).RaisesOnly
      [.invalidCarrier, .capacityExhausted] :=
  (requireCarrier_raisesOnly s (.head _)).andThen fun _ t => (hf t).andThen fun _ _ => trivial

/-- The one place where a signal is replaced by another (60_exceptions.md R167). -/
theorem Flow.RaisesOnly.surfaceTruncation {α : Type} {x : Flow α} {sigs : List Signal}
    (h : x.RaisesOnly [.capacityExhausted]) (hmem : .truncatedOrCorruptData ∈ sigs) :
    x.surfaceTruncation.RaisesOnly sigs := by
  cases x with
  | go _ _ => trivial
  | raised sig _ =>
    cases List.mem_singleton.mp h
    exact hmem
  | fault _ => trivial

/-! ### Which signals a command can end with -/

/-- The signals a legal command can end with: the `yes` cells of R168's table. Its column of IllegalCommand is left out,
as that signal answers words that are no command. -/
def signalsOf : Instr → List Signal
  | .init _ _ _ => [.invalidCarrier]
  | .adv => [.invalidCarrier, .capacityExhausted]
  | .wbit _ => [.invalidCarrier, .capacityExhausted]
  | .rbit => [.invalidCarrier, .capacityExhausted]
  | .mask _ => []
  | .tobits _ _ => [.valueTooLarge]
  | .frombits _ _ => []
  | .encode _ => [.invalidCarrier, .carrierTooSmall]
  | .decode => [.invalidCarrier, .truncatedOrCorruptData]
  | .rdreg _ => []

/-- A term that no word decodes to ends IllegalCommand and changes nothing more (30_encoding.md R80, log 12). -/
theorem exec_of_not_wellFormed {i : Instr} {s : State} (hwf : ¬ WellFormed s.params i = true) :
    exec i s = .next (s.answerSignal 0x06#8) := by
  cases i with
  | init h w c =>
    have hfit : dimensionsFit s.params h w c = false := Bool.eq_false_of_not_eq_true hwf
    rw [exec, execInit, if_pos hfit]
    rfl
  | tobits width value =>
    have hlegal : ¬ legalWidth width = true := hwf
    rw [exec, execTobits, dif_neg hlegal]
    rfl
  | frombits n digits =>
    rw [exec, execFrombits, dif_neg fun hlegal => hwf (Bool.and_eq_true_iff.mpr hlegal)]
    rfl
  | _ => exact absurd rfl hwf

/-- A result ends a command in the state the claims write out (30_encoding.md R71). -/
theorem finish_go (d : Data) (s : State) : (Flow.go d s).finish = .next (s.answerOk d) := rfl

/-- Without a carrier ENCODE raises InvalidCarrier (44_system.md R151). -/
theorem exec_encode_of_not_valid {len : Data} {s : State} (hv : s.valid = false) :
    exec (.encode len) s = .next (s.answerSignal 0x01#8) := by
  rw [exec, execEncode, requireCarrier_of_not_valid hv]
  rfl

/-- ENCODE has three ends: no carrier, a carrier too small, or the whole frame written; the frame that fits meets no
exhausted cursor (43_frame_codec.md R132). -/
theorem exec_encode_raisesOnly (len : Data) (s : State) :
    ∃ x : Flow Data, exec (.encode len) s = x.finish ∧ x.RaisesOnly (signalsOf (.encode len)) := by
  cases hv : s.valid with
  | false => exact ⟨.raised .invalidCarrier s, exec_encode_of_not_valid hv, .head _⟩
  | true =>
    rcases Nat.lt_or_ge s.capacity (64 + 8 * len.toNat) with hlt | hle
    · exact ⟨.raised .carrierTooSmall s, exec_encode_of_lt hv hlt, .tail _ (.head _)⟩
    · exact ⟨.go len _, (exec_encode_of_le hv hle).trans (finish_go len _).symm, trivial⟩

/-- A legal command but RDREG ends by `finish` of a piece that raises the signals of its row only (R168). -/
theorem exec_raisesOnly {i : Instr} {s : State} (hwf : WellFormed s.params i = true) (hq : ∀ q, i ≠ .rdreg q) :
    ∃ x : Flow Data, exec i s = x.finish ∧ x.RaisesOnly (signalsOf i) := by
  cases i with
  | init h w c =>
    have hfit : dimensionsFit s.params h w c = true := hwf
    refine ⟨_, rfl, ?_⟩
    rw [if_neg (ne_false_of_eq_true hfit)]
    split
    · exact .head _
    · trivial
  | adv => exact ⟨_, rfl, slotCommand_raisesOnly s fun t => (advance_ends t).raisesOnly (by decide)⟩
  | wbit b => exact ⟨_, rfl, slotCommand_raisesOnly s fun t => (bitWrite_ends b t).raisesOnly (by decide)⟩
  | rbit => exact ⟨_, rfl, slotCommand_raisesOnly s fun t => (bitRead_ends t).raisesOnly (by decide)⟩
  | mask k => exact ⟨.go ((clrMask k ++ setMask k).setWidth 64) s, rfl, trivial⟩
  | tobits width value =>
    rcases Nat.lt_or_ge value.toNat (2 ^ width.toNat) with hlt | hle
    · exact ⟨.go _ s, exec_tobits_of_lt hwf hlt s, trivial⟩
    · exact ⟨.raised .valueTooLarge s, exec_tobits_of_le hwf hle s, .head _⟩
  | frombits n digits =>
    obtain ⟨hn, hstray⟩ := Bool.and_eq_true_iff.mp hwf
    exact ⟨.go _ s, exec_frombits_of_noStrayDigit hn hstray s, trivial⟩
  | encode len => exact exec_encode_raisesOnly len s
  | decode =>
    refine ⟨_, rfl, (requireCarrier_raisesOnly s (.head _)).andThen fun _ t =>
      Flow.RaisesOnly.surfaceTruncation ?_ (by decide)⟩
    exact ((bitReads_ends _ _).raisesOnly (.head _)).andThen fun _ u =>
      ((readBytes_ends _ u).raisesOnly (.head _)).andThen fun _ _ => trivial
  | rdreg q => exact absurd rfl (hq q)

/-- What a response's code can be: `OK`, the signal of an ill-formed term, or one of the command's row (R168). -/
theorem response_sig_of_exec {i : Instr} {s t : State} {r : Response} (h : exec i s = .next t)
    (hr : t.response = some r) :
    r.sig = 0x00#8 ∨ (¬ WellFormed s.params i = true ∧ r.sig = 0x06#8) ∨ ∃ sig ∈ signalsOf i, r.sig = sig.code := by
  by_cases hq : ∃ q, i = .rdreg q
  · obtain ⟨q, rfl⟩ := hq
    cases h
    cases hr
    exact .inl rfl
  by_cases hwf : WellFormed s.params i = true
  · obtain ⟨x, hx, hraises⟩ := exec_raisesOnly hwf (not_exists.mp hq)
    rw [hx] at h
    rcases next_of_finish h with ⟨d, u, rfl, rfl⟩ | ⟨sig, u, rfl, rfl⟩
    · cases hr
      exact .inl rfl
    · cases hr
      exact .inr (.inr ⟨sig, hraises, rfl⟩)
  · rw [exec_of_not_wellFormed hwf] at h
    cases h
    cases hr
    exact .inr (.inl ⟨hwf, rfl⟩)

/-! ### CarrierTooSmall -/

theorem exists_encode_of_carrierTooSmall_mem {i : Instr} (h : .carrierTooSmall ∈ signalsOf i) :
    ∃ len, i = .encode len := by
  cases i with
  | encode len => exact ⟨len, rfl⟩
  | _ => simp [signalsOf] at h

theorem eq_carrierTooSmall_of_code {sig : Signal} (h : 0x02#8 = sig.code) : sig = .carrierTooSmall := by
  cases sig with
  | carrierTooSmall => rfl
  | _ => exact absurd h (by decide)

/-- R168's table has one `yes` in the column of CarrierTooSmall. -/
theorem exists_encode_of_response_sig {i : Instr} {s t : State} {r : Response} (h : exec i s = .next t)
    (hr : t.response = some r) (hsig : r.sig = 0x02#8) : ∃ len, i = .encode len := by
  rcases response_sig_of_exec h hr with hok | ⟨-, hillegal⟩ | ⟨sig, hmem, hcode⟩
  · exact absurd (hsig.symm.trans hok) (by decide)
  · exact absurd (hsig.symm.trans hillegal) (by decide)
  · cases eq_carrierTooSmall_of_code (hsig.symm.trans hcode)
    exact exists_encode_of_carrierTooSmall_mem hmem

/-- Settles O33: the refusal comes from the state ENCODE started in; only ENCODE's row of R168 has the signal, and
without a carrier, or on the other side of the boundary R134, ENCODE ends otherwise. -/
theorem carrierTooSmallOnlyUpFront : Obligations.CarrierTooSmallOnlyUpFront := by
  refine ⟨fun len s => exec_encode_of_lt, fun i s t r h hr hsig => ?_⟩
  obtain ⟨len, rfl⟩ := exists_encode_of_response_sig h hr hsig
  cases hv : s.valid with
  | false =>
    rw [exec_encode_of_not_valid hv] at h
    cases h
    cases hr
    cases hsig
  | true =>
    obtain ⟨t', r', ht', hr', -, hiff⟩ := encodeCapacityBoundary len s hv
    cases h.symm.trans ht'
    cases hr.symm.trans hr'
    exact ⟨len, rfl, rfl, hiff.mp hsig⟩

end Sys2Proof.Machine

/-! PROOFS. The encoder and the decoder invert each other at any parameters (30_encoding.md R70 to R74, R80), and the
fields of INIT's word (R74). -/

namespace Sys2Proof

/-! ### Decoding an encoded command -/

/-- Three dimensions that fit leave no 1 above their fields (R74). -/
theorem noStrayDimensionBit_dimensionData {p : Params} {h w c : Nat} (f : dimensionsFit p h w c = true) :
    noStrayDimensionBit p (dimensionData p h w c) = true := by
  rw [noStrayDimensionBit, toNat_dimensionData f]
  exact decide_eq_true (dimensions_lt f)

theorem decodeInit_dimensionData {p : Params} {h w c : Nat} (f : dimensionsFit p h w c = true) :
    decodeInit p 0#8 (dimensionData p h w c) = .command (.init h w c) := by
  rw [decodeInit, if_pos ⟨rfl, noStrayDimensionBit_dimensionData f⟩, heightField_dimensionData f,
    widthField_dimensionData f, channelsField_dimensionData f]

theorem decodeWbit_ofBool (b : Bool) : decodeWbit ((BitVec.ofBool b).setWidth 8) 0#64 = .command (.wbit b) := by
  revert b
  decide

theorem decodeMask_setWidth (k : BitVec 3) : decodeMask (k.setWidth 8) 0#64 = .command (.mask k) := by
  revert k
  decide

/-- Settles O8: the decoder of each `op` reads back the fields that the encoder of that command wrote. -/
theorem decodeOfEncodeIsTheCommand : Obligations.DecodeOfEncodeIsTheCommand := by
  intro p i hwf
  cases i with
  | init h w c => exact (decodeCommand_assemble p ..).trans (decodeInit_dimensionData hwf)
  | adv => exact (decodeCommand_assemble p ..).trans rfl
  | wbit b => exact (decodeCommand_assemble p ..).trans (decodeWbit_ofBool b)
  | rbit => exact (decodeCommand_assemble p ..).trans rfl
  | mask k => exact (decodeCommand_assemble p ..).trans (decodeMask_setWidth k)
  | tobits width value => exact (decodeCommand_assemble p ..).trans (if_pos hwf)
  | frombits n digits =>
    obtain ⟨hn, hstray⟩ := Bool.and_eq_true_iff.mp hwf
    exact (decodeCommand_assemble p ..).trans ((if_pos hn).trans (if_pos hstray))
  | encode len => exact (decodeCommand_assemble p ..).trans rfl
  | decode => exact (decodeCommand_assemble p ..).trans rfl
  | rdreg q => exact decodeCommand_rdreg q p

/-- Settles O9: the decoder of each `op` accepts only what the encoder writes. -/
theorem encodeOfDecodeIsTheWord : Obligations.EncodeOfDecodeIsTheWord :=
  fun _ _ _ h => encodeCommand_of_decodeCommand h

/-- Settles O11: the twelve words are decoded one by one. -/
theorem sampleWordsDecode : Obligations.SampleWordsDecode := by
  unfold Obligations.SampleWordsDecode
  decide

/-! ### The bytes of a word -/

/-- The bytes of `data` are the low eight of the word (R70). -/
theorem extractLsb'_dataField (w : CommandWord) {i n : Nat} (h : i + n ≤ 64) :
    (dataField w).extractLsb' i n = w.extractLsb' i n :=
  BitVec.extractLsb'_extractLsb'_of_le h

theorem wordBytes_eq (w : CommandWord) :
    wordBytes w = opField w :: auxField w ::
      (List.range 8).map (fun i => (dataField w).extractLsb' (8 * (7 - i)) 8) := by
  have hdata : (List.range 8).map (fun i => (dataField w).extractLsb' (8 * (7 - i)) 8) =
      (List.range 8).map (fun i => w.extractLsb' (8 * (7 - i)) 8) :=
    List.map_congr_left fun i _ => extractLsb'_dataField w (by omega)
  rw [hdata]
  rfl

/-- Ten bytes of a word, put together again, are the word. -/
theorem wordOfBytes_wordBytes (w : CommandWord) (rest : List Byte) : wordOfBytes (wordBytes w ++ rest) = some (w, rest) := by
  have hglue (i n : Nat) : w.extractLsb' (i + 8) n ++ w.extractLsb' i 8 = w.extractLsb' i (n + 8) :=
    BitVec.extractLsb'_append_extractLsb'_eq_extractLsb' rfl
  change some ((w.extractLsb' 72 8 ++ w.extractLsb' 64 8 ++ w.extractLsb' 56 8 ++ w.extractLsb' 48 8 ++
    w.extractLsb' 40 8 ++ w.extractLsb' 32 8 ++ w.extractLsb' 24 8 ++ w.extractLsb' 16 8 ++ w.extractLsb' 8 8 ++
    w.extractLsb' 0 8 : CommandWord), rest) = some (w, rest)
  rw [hglue 64, hglue 56, hglue 48, hglue 40, hglue 32, hglue 24, hglue 16, hglue 8, hglue 0, BitVec.extractLsb'_eq_self]

/-- Settles O12: the ten bytes, put together, are the word, which is all that the decoder on bytes reads. -/
theorem commandBytesCarryTheWord : Obligations.CommandBytesCarryTheWord := by
  intro p w rest
  refine ⟨wordBytes_eq w, wordOfBytes_wordBytes w rest, ?_⟩
  rw [decodeBytes, wordOfBytes_wordBytes]

/-! ### The bits of INIT's fields -/

/-- A field's number, bit by bit, is the part of `data` that the field stands in. -/
theorem toNat_extractLsb'_testBit (d : Data) (i : Nat) {n j : Nat} (h : j < n) :
    (d.extractLsb' i n).toNat.testBit j = d.getLsbD (i + j) := by
  rw [BitVec.testBit_toNat, BitVec.getLsbD_extractLsb', decide_eq_true h, Bool.true_and]

/-- No stray bit means zeros from `CAP_BITS` up (log 14). -/
theorem noStrayDimensionBit_iff {p : Params} {d : Data} :
    noStrayDimensionBit p d = true ↔ ∀ j, p.capBits ≤ j → d.getLsbD j = false := by
  rw [noStrayDimensionBit, decide_eq_true_iff]
  exact ⟨fun h j hj => Nat.testBit_lt_two_pow (h.trans_le (Nat.pow_le_pow_right (by decide) hj)),
    fun h => Nat.lt_pow_two_of_testBit _ h⟩

/-- INIT's `data` has no bit for a 1 above the three fields (log 14). -/
theorem decodeInit_of_stray {p : Params} {data : Data} {j : Nat} (aux : Byte) (hj : p.capBits ≤ j)
    (hbit : data.getLsbD j = true) : decodeInit p aux data = .illegal .nonzeroField :=
  if_neg fun ⟨_, hno⟩ => absurd hbit (Bool.eq_false_iff.mp (noStrayDimensionBit_iff.mp hno j hj))

/-- Settles O43: each field of the word, read back bit by bit, is its dimension; above the fields the word has the zeros
that the decoder asks for. -/
theorem initFieldsFollowTheParameters : Obligations.InitFieldsFollowTheParameters := by
  intro p h w c f
  rw [encodeCommand, opField_assemble, auxField_assemble, dataField_assemble]
  refine ⟨rfl, rfl, fun j hj => ?_, fun j hj => ?_, fun j hj => ?_,
    noStrayDimensionBit_iff.mp (noStrayDimensionBit_dimensionData f), fun data j hj hbit => ⟨.nonzeroField, ?_⟩⟩
  · have hbit := toNat_extractLsb'_testBit (dimensionData p h w c) 0 hj
    rw [Nat.zero_add] at hbit
    exact hbit.symm.trans (congrArg (Nat.testBit · j) (channelsField_dimensionData f))
  · exact (toNat_extractLsb'_testBit _ _ hj).symm.trans (congrArg (Nat.testBit · j) (widthField_dimensionData f))
  · exact (toNat_extractLsb'_testBit _ _ hj).symm.trans (congrArg (Nat.testBit · j) (heightField_dimensionData f))
  · exact (decodeCommand_assemble p ..).trans (decodeInit_of_stray 0#8 hj hbit)

end Sys2Proof

/-! PROOFS. What taking each of the host's moves does (00_scope.md R15, 60_exceptions.md R170, R186,
70_reset_and_hazards.md R190), and with it the reset values (10_state.md R38) and the bits of `STATUS` (R31). -/

namespace Sys2Proof.Machine

/-! ### One step, by the host's next move -/

theorem step_of_idle {s : State} (h : s.host = []) : step s = .next s := by
  rw [step, takeMove, h]

theorem step_of_reset {s : State} {rest : List HostMove} (h : s.host = .reset :: rest) :
    step s = .next (resetRegisters { s with host := rest }) := by
  rw [step, takeMove, h]

theorem step_of_store {s : State} {slot : Nat} {v : Byte} {rest : List HostMove} (h : s.host = .store slot v :: rest) :
    step s = .next { s with grid := Memory.write s.grid slot v, host := rest } := by
  rw [step, takeMove, h]

/-- The state in which a presented word is decoded: its payload in PAYIN, its move taken off the list. -/
def State.presented (s : State) (p : List Byte) (rest : List HostMove) : State := { s with payIn := p, host := rest }

theorem takeMove_of_command {s : State} {w : CommandWord} {p : List Byte} {rest : List HostMove}
    (h : s.host = .command w p :: rest) : takeMove s = acceptWord w (s.presented p rest) := by
  rw [takeMove, h]
  rfl

theorem acceptWord_of_command {w : CommandWord} {s : State} {i : Instr} (h : decodeCommand s.params w = .command i) :
    acceptWord w s = .command i s := by
  rw [acceptWord, h]

theorem step_of_illegal {s : State} {w : CommandWord} {p : List Byte} {rest : List HostMove} {e : DecodeError}
    (h : s.host = .command w p :: rest) (hw : decodeCommand s.params w = .illegal e) :
    step s = .next (raiseSignal .illegalCommand (s.presented p rest)) := by
  rw [step, takeMove_of_command h, acceptWord_of_illegal (s := s.presented p rest) hw]

theorem step_of_command {s : State} {w : CommandWord} {p : List Byte} {rest : List HostMove} {i : Instr}
    (h : s.host = .command w p :: rest) (hw : decodeCommand s.params w = .command i) :
    step s = exec i (s.presented p rest) := by
  rw [step, takeMove_of_command h, acceptWord_of_command (s := s.presented p rest) hw]

/-- What a step that ends with a next state has done: nothing, a reset, a store, an illegal word, or a command. -/
theorem step_cases {s t : State} (h : step s = .next t) :
    t = s ∨
    (∃ rest, s.host = .reset :: rest ∧ t = resetRegisters { s with host := rest }) ∨
    (∃ slot v rest, t = { s with grid := Memory.write s.grid slot v, host := rest }) ∨
    (∃ p rest, t = raiseSignal .illegalCommand (s.presented p rest)) ∨
    ∃ w p rest i, s.host = .command w p :: rest ∧ decodeCommand s.params w = .command i ∧
      exec i (s.presented p rest) = .next t := by
  cases hhost : s.host with
  | nil =>
    rw [step_of_idle hhost] at h
    cases h
    exact .inl rfl
  | cons move rest =>
    cases move with
    | reset =>
      rw [step_of_reset hhost] at h
      cases h
      exact .inr (.inl ⟨rest, rfl, rfl⟩)
    | store slot v =>
      rw [step_of_store hhost] at h
      cases h
      exact .inr (.inr (.inl ⟨slot, v, rest, rfl⟩))
    | command w p =>
      cases hw : decodeCommand s.params w with
      | illegal e =>
        rw [step_of_illegal hhost hw] at h
        cases h
        exact .inr (.inr (.inr (.inl ⟨p, rest, rfl⟩)))
      | command i =>
        rw [step_of_command hhost hw] at h
        exact .inr (.inr (.inr (.inr ⟨w, p, rest, i, rfl, hw, h⟩)))

/-- Settles O5: the step's equation for a word that decodes. -/
theorem stepRunsTheDecodedCommand : Obligations.StepRunsTheDecodedCommand :=
  fun _ _ _ _ _ => step_of_command

/-- Settles O6: the word is refused before any register is read, in a step too. -/
theorem illegalWordChangesOnlyLastsigAndErrs : Obligations.IllegalWordChangesOnlyLastsigAndErrs :=
  fun _ _ _ hw => ⟨acceptWord_of_illegal hw, fun _ _ h => step_of_illegal h hw⟩

/-- Settles O7: the step's equations without a move and for a store, whose write reaches one cell. -/
theorem idleAndHostStoreSteps : Obligations.IdleAndHostStoreSteps :=
  ⟨fun _ => step_of_idle, fun s slot v _ h => ⟨_, step_of_store h, fun a => Memory.read_write s.grid slot v a⟩⟩

/-- Settles O1: a reset step zeroes the registers, and the mask pair and `CAPACITY` follow from `K = 0` and `VALID = 0`. -/
theorem resetGivesEveryRegisterItsValue : Obligations.ResetGivesEveryRegisterItsValue :=
  ⟨fun _ _ h => ⟨_, step_of_reset h, rfl, rfl, (by decide : clrMask 0 = 0xFE#8), rfl⟩, fun _ => rfl, rfl, rfl, rfl, rfl⟩

/-! ### STATUS -/

/-- The bits of the flags byte (10_state.md R31). -/
theorem flagsByte_getLsbD (s : State) (j : Nat) :
    (flagsByte s).getLsbD j =
      if j = 0 then s.valid else if j = 1 then s.exh else if j = 2 then s.errs else false := by
  simp only [flagsByte, BitVec.getLsbD_append, BitVec.getLsbD_ofBool]
  match j with
  | 0 => simp
  | 1 => simp
  | 2 => simp
  | j + 3 => simp

/-- `LASTSIG` stands above the flags byte, zeros above it (R31). -/
theorem statusReg_getLsbD (s : State) (j : Nat) :
    (statusReg s).getLsbD j = if j < 8 then (flagsByte s).getLsbD j else s.lastSig.getLsbD (j - 8) := by
  rw [statusReg, BitVec.getLsbD_setWidth, BitVec.getLsbD_append]
  by_cases hj : j < 64
  · rw [decide_eq_true hj, Bool.true_and]
  · rw [decide_eq_false hj, Bool.false_and, if_neg (by omega), BitVec.getLsbD_of_ge _ _ (by omega)]

/-- Settles O45: the flags byte bit by bit, `LASTSIG` above it; a store writes neither. -/
theorem statusPacksTheFlags : Obligations.StatusPacksTheFlags := by
  intro s
  refine ⟨?_, ?_, ?_, fun j hj hj8 => ?_, fun j hj => ?_, fun j hj => ?_, fun slot v rest t h ht => ?_⟩
  · rw [statusReg_getLsbD, if_pos (by decide), flagsByte_getLsbD, if_pos rfl]
  · rw [statusReg_getLsbD, if_pos (by decide), flagsByte_getLsbD, if_neg (by decide), if_pos rfl]
  · rw [statusReg_getLsbD, if_pos (by decide), flagsByte_getLsbD, if_neg (by decide), if_neg (by decide), if_pos rfl]
  · rw [statusReg_getLsbD, if_pos hj8, flagsByte_getLsbD, if_neg (by omega), if_neg (by omega), if_neg (by omega)]
  · rw [statusReg_getLsbD, if_neg (by omega), Nat.add_sub_cancel_left]
  · rw [statusReg_getLsbD, if_neg (by omega), BitVec.getLsbD_of_ge _ _ (by omega)]
  · rw [step_of_store h] at ht
    cases ht
    rfl

end Sys2Proof.Machine

/-! PROOFS. The single-bit laws (41_mask_bit_io.md R102), the converters as inverses (42_converters.md, section 2), and the
cursor walker (40_cursor_walker.md R90 to R95). -/

namespace Sys2Proof.Machine

/-! ### One bit of a byte, one string of digits -/

/-- Putting back the bit that is there changes nothing (R102). -/
theorem putBit_getBit (v : Byte) (k : BitVec 3) : putBit v k (getBit v k) = v := by
  apply BitVec.eq_of_getLsbD_eq
  intro i _
  rw [putBit_getLsbD, getBit_eq_getLsbD]
  split
  · subst_vars
    rfl
  · rfl

theorem getBit_putBit (v : Byte) (k : BitVec 3) (b : Bool) : getBit (putBit v k b) k = b := by
  rw [getBit_eq_getLsbD, putBit_getLsbD, if_pos rfl]

/-- Settles O14: the table holds the two masks, and the update and the test work on bit `k` alone. -/
theorem putAndGetTouchOneBit : Obligations.PutAndGetTouchOneBit := by
  intro v k b
  rw [maskLutAt_zero, maskLutAt_one]
  exact ⟨rfl, getBit_eq_decide v k, putBit_getLsbD v k b, getBit_eq_getLsbD v k, getBit_putBit v k b, putBit_getBit v k⟩

/-- Settles O30: the digits of a number that fits spell it, and the number that digits spell fits and has those digits. -/
theorem convertersAreInverse : Obligations.ConvertersAreInverse := by
  refine ⟨fun width value positive hlt => ?_, fun d nonempty => ⟨digitsValue_lt d, ?_⟩⟩
  · exact ⟨digitsOf value width, (digitsOf_length value width).symm ▸ positive, toBits_of_lt positive hlt,
      digitsOf_length value width, digitsValue_digitsOf_of_lt hlt⟩
  · exact (toBits_of_lt nonempty (digitsValue_lt d)).trans (congrArg Digits.digits (digitsOf_digitsValue d))

/-! ### The advance by stream positions -/

/-- At the last slot-in-time the advance raises (R90, R95): a next slot of the plane or a next plane would still be below
`8*C`. -/
theorem advance_of_streamPos_eq {s : State} (h : CursorInRange s) (hx : s.exh = false)
    (hn : s.streamPos + 1 = 8 * s.capacity) : advance s = .raised .capacityExhausted s.exhausted := by
  rcases advance_cases h hx with ⟨t, -, ht, hslot, -, hst⟩ | ⟨-, hk, -⟩ | ⟨-, -, hadv⟩
  · have hcap : t.capacity = s.capacity := (congrArg State.capacity hst).trans rfl
    have hlt := slotIndex_lt ht
    have hplane : s.k.toNat * s.capacity ≤ 7 * s.capacity := Nat.mul_le_mul_right _ (Nat.le_of_lt_succ s.k.isLt)
    rw [State.streamPos] at hn
    omega
  · have hk6 : s.k.toNat ≤ 6 := by
      have hne : s.k.toNat ≠ 7 := fun e => hk (BitVec.eq_of_toNat_eq e)
      have hlt := s.k.isLt
      omega
    have hplane : s.k.toNat * s.capacity ≤ 6 * s.capacity := Nat.mul_le_mul_right _ hk6
    have hslot := slotIndex_lt h
    rw [State.streamPos] at hn
    omega
  · exact hadv

/-- The last slot-in-time, from its position. -/
theorem advance_atStream_last {s : State} {n : Nat} (hn : n + 1 = 8 * s.capacity) :
    advance (s.atStream n) = .raised .capacityExhausted s.exhausted := by
  have hpos : (s.atStream n).streamPos = n := streamPos_atStream (by omega)
  exact advance_of_streamPos_eq (cursorInRange_atStream (by omega)) rfl (hpos.symm ▸ hn)

/-- Settles O16: the cases of an advance, told apart by the position they start from. -/
theorem advanceFollowsTheClosedForm : Obligations.AdvanceFollowsTheClosedForm :=
  fun _ h hx => ⟨streamPos_lt h, atStream_streamPos h hx, advance_of_streamPos_lt h hx, advance_of_streamPos_eq h hx⟩

theorem advances_atStream {s : State} {n m : Nat} (h : m + n < 8 * s.capacity) :
    advances n (s.atStream m) = .go () (s.atStream (m + n)) := by
  induction n generalizing m with
  | zero => rfl
  | succ n ih =>
    rw [advances, advance_atStream (by omega), andThen_go, ih (by omega), Nat.add_right_comm m 1 n, Nat.add_assoc]

theorem advances_atStream_of_le {s : State} {n m : Nat} (hm : m < 8 * s.capacity) (h : 8 * s.capacity ≤ m + n) :
    advances n (s.atStream m) = .raised .capacityExhausted s.exhausted := by
  induction n generalizing m with
  | zero => omega
  | succ n ih =>
    rw [advances]
    rcases Nat.lt_or_ge (m + 1) (8 * s.capacity) with hlt | hge
    · rw [advance_atStream hlt, andThen_go, ih hlt (by omega)]
    · rw [advance_atStream_last (by omega), andThen_raised]

/-- Settles O17: from position 0 advances count positions, up to the last one below `8*C`. -/
theorem exactlyEightPlanesOfAdvances : Obligations.ExactlyEightPlanesOfAdvances := by
  intro s hc
  rw [rewind_eq_atStream]
  refine ⟨fun n hn => ⟨?_, streamPos_atStream hn⟩, fun n hn => advances_atStream_of_le (by omega) (by omega)⟩
  rw [advances_atStream (by omega), Nat.zero_add]

/-! ### ADV -/

theorem exec_adv_of_go {s t : State} (hv : s.valid = true) (h : advance s = .go () t) :
    exec .adv s = .next (t.answerOk 0#64) := by
  rw [exec, execAdv, requireCarrier_of_valid hv, andThen_go, h, andThen_go]
  rfl

theorem exec_adv_of_raised {s t : State} {sig : Signal} (hv : s.valid = true) (h : advance s = .raised sig t) :
    exec .adv s = .next (t.answerSignal sig.code) := by
  rw [exec, execAdv, requireCarrier_of_valid hv, andThen_go, h, andThen_raised]
  rfl

/-- Settles O18: ADV answers the state its advance goes on in. -/
theorem advMovesOneSlot : Obligations.AdvMovesOneSlot :=
  fun _ hv hx h hn => exec_adv_of_go hv (advance_of_streamPos_lt h hx hn)

/-- Settles O19: the advance raises at the last slot-in-time, and at once on an exhausted cursor. -/
theorem advExhaustsAtTheLastSlot : Obligations.AdvExhaustsAtTheLastSlot :=
  fun _ hv => ⟨fun hx hr hc hh hk => exec_adv_of_raised hv (advance_of_atLastSlot ⟨hx, hr, hc, hh, hk⟩),
    fun hx => exec_adv_of_raised hv (advance_of_exh hx)⟩

/-! ### The bit depth -/

/-- The bit depth is as before, or one more with the cursor at `(0,0,0)` (10_state.md R23). -/
def PlaneStep (s t : State) : Prop :=
  t.k = s.k ∨ (t.k.toNat = s.k.toNat + 1 ∧ t.row = 0 ∧ t.col = 0 ∧ t.ch = 0)

/-- An advance steps the plane in one branch only, where `K` is not 7 (R90). -/
theorem advance_leaves_planeStep (s : State) : (advance s).Leaves (PlaneStep s) := by
  unfold advance
  split_ifs with hx hch hcol hrow hk
  · exact .inl rfl
  · exact .inl rfl
  · exact .inl rfl
  · exact .inl rfl
  · exact .inl rfl
  · refine .inr ⟨?_, rfl, rfl, rfl⟩
    have hne : s.k.toNat ≠ 7 := fun e => hk (BitVec.eq_of_toNat_eq e)
    have hlt : s.k.toNat + 1 < 2 ^ 3 := by omega
    exact BitVec.toNat_add_of_lt hlt

theorem bitWrite_leaves_planeStep (b : Bool) (s : State) : (bitWrite b s).Leaves (PlaneStep s) := by
  rcases bitWrite_cases b s with h | h | ⟨a, -, -, h⟩ <;> rw [h]
  · exact .inl rfl
  · trivial
  · exact advance_leaves_planeStep _

theorem bitRead_leaves_planeStep (s : State) : (bitRead s).Leaves (PlaneStep s) := by
  rcases bitRead_cases s with h | h | ⟨a, -, -, h⟩ <;> rw [h]
  · exact .inl rfl
  · trivial
  · exact (advance_leaves_planeStep s).andThen fun _ _ ht => ht

/-- A command that ends does so with a response to a state its piece of pseudocode leaves. -/
theorem Flow.Leaves.of_finish {x : Flow Data} {P : State → Prop} {t : State} (hx : x.Leaves P) (h : x.finish = .next t) :
    ∃ u, P u ∧ ((∃ d, t = u.answerOk d) ∨ ∃ sig : Signal, t = u.answerSignal sig.code) := by
  rcases next_of_finish h with ⟨d, u, rfl, rfl⟩ | ⟨sig, u, rfl, rfl⟩
  · exact ⟨u, hx, .inl ⟨d, rfl⟩⟩
  · exact ⟨u, hx, .inr ⟨sig, rfl⟩⟩

/-- ADV, WBIT and RBIT are the carrier check and one slot operation: they leave the state as it is, or what the operation
leaves of it. -/
theorem slotCommand_leaves {α : Type} {f : State → Flow α} {result : α → Data} {P : State → Prop} {s : State}
    (hs : P s) (hf : (f s).Leaves P) :
    ((requireCarrier s).andThen fun _ t => (f t).andThen fun a u => .go (result a) u).Leaves P := by
  cases hv : s.valid with
  | false =>
    rw [requireCarrier_of_not_valid hv]
    exact hs
  | true =>
    rw [requireCarrier_of_valid hv]
    exact hf.andThen fun _ _ hu => hu

theorem planeStep_of_finish {x : Flow Data} {s t : State} (hx : x.Leaves (PlaneStep s)) (h : x.finish = .next t) :
    PlaneStep s t := by
  obtain ⟨u, hu, ⟨d, rfl⟩ | ⟨sig, rfl⟩⟩ := hx.of_finish h
  · exact hu
  · exact hu

/-- Settles O20: the three commands do one advance at most, and a response does not touch the cursor. -/
theorem bitDepthStepsOnlyAtAFullWrap : Obligations.BitDepthStepsOnlyAtAFullWrap := by
  rintro i s t (rfl | rfl | ⟨b, rfl⟩) h
  · exact planeStep_of_finish (slotCommand_leaves (.inl rfl) (advance_leaves_planeStep s)) h
  · exact planeStep_of_finish (slotCommand_leaves (.inl rfl) (bitRead_leaves_planeStep s)) h
  · exact planeStep_of_finish (slotCommand_leaves (.inl rfl) (bitWrite_leaves_planeStep b s)) h

/-! ### The bit writer and the bit reader below the last slot-in-time -/

/-- WBIT answers the state its bit write goes on in. -/
theorem exec_wbit_of_go {b : Bool} {s t : State} (hv : s.valid = true) (h : bitWrite b s = .go () t) :
    exec (.wbit b) s = .next (t.answerOk 0#64) := by
  rw [exec, execWbit, requireCarrier_of_valid hv, andThen_go, h, andThen_go]
  rfl

theorem ofBool_setWidth (b : Bool) : (BitVec.ofBool b).setWidth 64 = 0#63 ++ BitVec.ofBool b := by
  revert b
  decide

/-- RBIT answers its bit in the lowest place (41_mask_bit_io.md R107). -/
theorem exec_rbit_of_go {b : Bool} {s t : State} (hv : s.valid = true) (h : bitRead s = .go b t) :
    exec .rbit s = .next (t.answerOk (0#63 ++ BitVec.ofBool b)) := by
  rw [exec, execRbit, requireCarrier_of_valid hv, andThen_go, h, andThen_go, ofBool_setWidth]
  rfl

/-- The bit writer below the last slot-in-time, from the cursor as it stands. -/
theorem bitWrite_of_streamPos_lt {s : State} (h : CursorInRange s) (hx : s.exh = false)
    (hn : s.streamPos + 1 < 8 * s.capacity) (b : Bool) :
    bitWrite b s = .go () ((s.atStream (s.streamPos + 1)).withGrid (wroteBit s b)) :=
  (bitWrite_of_inRange h hx b).trans (advance_of_streamPos_lt (s := s.withGrid (wroteBit s b)) h hx hn)

/-- The bit reader below the last slot-in-time, from the cursor as it stands. -/
theorem bitRead_of_streamPos_lt {s : State} (h : CursorInRange s) (hx : s.exh = false)
    (hn : s.streamPos + 1 < 8 * s.capacity) :
    bitRead s = .go ((Memory.read s.grid s.slotIndex).getLsbD s.k.toNat) (s.atStream (s.streamPos + 1)) := by
  rw [bitRead_of_inRange h hx, advance_of_streamPos_lt h hx hn, andThen_go, getBit_eq_getLsbD]

theorem exec_wbit_of_streamPos_lt {s : State} (hv : s.valid = true) (hx : s.exh = false) (h : CursorInRange s)
    (hn : s.streamPos + 1 < 8 * s.capacity) (b : Bool) :
    exec (.wbit b) s = .next (((s.atStream (s.streamPos + 1)).withGrid (wroteBit s b)).answerOk 0#64) :=
  exec_wbit_of_go hv (bitWrite_of_streamPos_lt h hx hn b)

/-- Settles O22: one bit of one cell is written, and the advance goes on. -/
theorem wbitWritesOneBitAndAdvances : Obligations.WbitWritesOneBitAndAdvances :=
  fun b s hv hx h hn => ⟨wroteBit s b, exec_wbit_of_streamPos_lt hv hx h hn b, read_wroteBit_slotIndex_getLsbD s b,
    fun _ ha => read_wroteBit_of_ne ha b⟩

/-- Settles O24: one bit of one cell is read, and the advance goes on. -/
theorem rbitReadsOneBitAndAdvances : Obligations.RbitReadsOneBitAndAdvances :=
  fun _ hv hx h hn => exec_rbit_of_go hv (bitRead_of_streamPos_lt h hx hn)

/-- Settles O26: the bit reader, put back, reads the stream bit that the bit writer wrote. -/
theorem bitReadAfterBitWrite : Obligations.BitReadAfterBitWrite := by
  intro b s t hv hx h hn ht
  rw [exec_wbit_of_streamPos_lt hv hx h hn b] at ht
  cases ht
  have hstream : streamBit (wroteBit s b) s.capacity s.streamPos = b := by
    have hbit := streamBit_wroteBit (streamPos_lt h) b s.streamPos
    rwa [atStream_streamPos h hx, if_pos rfl] at hbit
  refine ⟨_, exec_rbit_of_go hv (bitRead_atStream hn), rfl, _, rfl, rfl, ?_⟩
  exact congrArg (0#63 ++ BitVec.ofBool ·) hstream

/-! ### Without a carrier -/

/-- The commands that need a carrier start with the same check (44_system.md R151). -/
theorem finish_of_not_valid {s : State} (hv : s.valid = false) (f : Unit → State → Flow Data) :
    ((requireCarrier s).andThen f).finish = .next (s.answerSignal 0x01#8) := by
  rw [requireCarrier_of_not_valid hv]
  rfl

/-- Settles O27: the check comes before anything else, and INIT of a zero dimension raises the same signal. -/
theorem commandsWithoutACarrier : Obligations.CommandsWithoutACarrier := by
  refine ⟨?_, fun s h w c f hzero => ⟨_, _, exec_init_of_zero f hzero, rfl, rfl, rfl⟩⟩
  rintro s i hv (rfl | rfl | rfl | ⟨b, rfl⟩ | ⟨len, rfl⟩) <;> exact finish_of_not_valid hv _

end Sys2Proof.Machine

/-! PROOFS. The frame codec: every end of ENCODE and of DECODE, the cells that the write loop fills and the stream that the
read loop delivers (43_frame_codec.md R131 to R139, 20_memory.md R67). -/

namespace Sys2Proof.Machine

/-! ### The cells that bits written from the start fill -/

/-- Settles O39: the write loop from position 0 on, stream bit by stream bit. -/
theorem streamBitsFillThePlanes : Obligations.StreamBitsFillThePlanes := by
  intro s bits hlen
  refine ⟨wroteBits bits 0 s, ?_, fun n _ => ?_, fun a ha => read_wroteBits_of_le (by omega) ha⟩
  · rw [rewind_eq_atStream, bitWrites_atStream (by omega), Nat.zero_add]
  · have hbit := streamBit_wroteBits_add (bs := bits) (n := 0) (s := s) (by omega) n
    rwa [Nat.zero_add, List.getD_eq_getElem?_getD] at hbit

/-- Bits that fit in plane 0 go to bit 0 of the first cells, in slot order, and nowhere else (20_memory.md R55). -/
theorem read_wroteBits_getLsbD {bs : List Bool} {s : State} (hc : 0 < s.capacity) (hle : bs.length ≤ s.capacity) (a j : Nat) :
    (Memory.read (wroteBits bs 0 s) a).getLsbD j =
      if j = 0 then bs.getD a ((Memory.read s.grid a).getLsbD 0) else (Memory.read s.grid a).getLsbD j := by
  rcases Nat.lt_or_ge a s.capacity with ha | ha
  · have hbit := streamBit_wroteBits_add (bs := bs) (n := 0) (s := s) (by omega) (s.capacity * j + a)
    rw [Nat.zero_add] at hbit
    rw [getLsbD_read_eq_streamBit _ ha, hbit, ← getLsbD_read_eq_streamBit _ ha]
    split
    · subst_vars
      rw [Nat.mul_zero, Nat.zero_add]
    · have hplane : s.capacity ≤ s.capacity * j := Nat.le_mul_of_pos_right _ (by omega)
      rw [List.getD_eq_default _ _ (by omega)]
  · rw [read_wroteBits_of_le hc ha]
    split
    · subst_vars
      rw [List.getD_eq_default _ _ (by omega)]
    · rfl

/-- A cell beyond the bits written in plane 0 keeps its whole value. -/
theorem read_wroteBits_of_length_le {bs : List Bool} {s : State} {a : Nat} (hc : 0 < s.capacity)
    (hle : bs.length ≤ s.capacity) (ha : bs.length ≤ a) : Memory.read (wroteBits bs 0 s) a = Memory.read s.grid a := by
  apply BitVec.eq_of_getLsbD_eq
  intro j _
  rw [read_wroteBits_getLsbD hc hle, List.getD_eq_default _ _ ha]
  split
  · subst_vars
    rfl
  · rfl

/-! ### ENCODE -/

/-- The three ends of ENCODE, in any state: no carrier, a carrier too small, the frame written (R131, R134). -/
theorem exec_encode_cases (len : Data) (s : State) :
    (s.valid = false ∧ exec (.encode len) s = .next (s.answerSignal 0x01#8)) ∨
    (s.valid = true ∧ s.capacity < 64 + 8 * len.toNat ∧ exec (.encode len) s = .next (s.answerSignal 0x02#8)) ∨
    (s.valid = true ∧ 64 + 8 * len.toNat ≤ s.capacity ∧
      exec (.encode len) s = .next (((s.atStream (64 + 8 * len.toNat)).withGrid
        (wroteBits (frame (payload s.payIn len.toNat)) 0 s)).answerOk len)) := by
  cases hv : s.valid with
  | false => exact .inl ⟨rfl, exec_encode_of_not_valid hv⟩
  | true =>
    rcases Nat.lt_or_ge s.capacity (64 + 8 * len.toNat) with hlt | hle
    · exact .inr (.inl ⟨rfl, hlt, exec_encode_of_lt hv hlt⟩)
    · exact .inr (.inr ⟨rfl, hle, exec_encode_of_le hv hle⟩)

/-- Settles O34: an accepted ENCODE writes the frame's bits, which lie in plane 0. -/
theorem encodeWritesTheFrame : Obligations.EncodeWritesTheFrame := by
  intro len s hv hlen hle
  have hframe := frame_length s.payIn
  rw [hlen] at hframe
  refine ⟨wroteBits (frame s.payIn) 0 s, ?_, hframe, fun a ha => ?_, fun a j hj => ?_, fun a ha => ?_⟩
  · rw [exec_encode_of_le hv hle, payload_of_length_eq hlen]
  · rw [read_wroteBits_getLsbD (by omega) (by omega), if_pos rfl, List.getD_eq_getElem _ _ (by omega),
      List.getElem?_eq_getElem (by omega)]
  · rw [read_wroteBits_getLsbD (by omega) (by omega), if_neg hj]
  · exact read_wroteBits_of_length_le (by omega) (by omega) (by omega)

/-! ### The read loops at the end of the traversal -/

theorem bitRead_atStream_last {s : State} {n : Nat} (hn : n + 1 = 8 * s.capacity) :
    bitRead (s.atStream n) = .raised .capacityExhausted s.exhausted := by
  rw [bitRead_of_inRange (cursorInRange_atStream (by omega)) rfl, advance_atStream_last hn, andThen_raised]

/-- Bit reads that reach the last slot-in-time raise there (R108, R138). -/
theorem bitReads_atStream_of_le {s : State} {n m : Nat} (hm : m < 8 * s.capacity) (h : 8 * s.capacity ≤ m + n) :
    bitReads n (s.atStream m) = .raised .capacityExhausted s.exhausted := by
  induction n generalizing m with
  | zero => omega
  | succ n ih =>
    rw [bitReads]
    rcases Nat.lt_or_ge (m + 1) (8 * s.capacity) with hlt | hge
    · rw [bitRead_atStream hlt, andThen_go, ih hlt (by omega), andThen_raised]
    · rw [bitRead_atStream_last (by omega), andThen_raised]

/-- The payload loop raises at the last slot-in-time, however many bytes it is to read (70_reset_and_hazards.md R211). -/
theorem readBytes_atStream_of_le {s : State} {n m : Nat} (hm : m < 8 * s.capacity) (h : 8 * s.capacity ≤ m + 8 * n) :
    readBytes n (s.atStream m) = .raised .capacityExhausted s.exhausted := by
  induction n generalizing m with
  | zero => omega
  | succ n ih =>
    rw [readBytes]
    rcases Nat.lt_or_ge (m + 8) (8 * s.capacity) with hlt | hge
    · rw [bitReads_atStream hlt, andThen_go, ih hlt (by omega), andThen_raised]
    · rw [bitReads_atStream_of_le hm hge, andThen_raised]

/-! ### DECODE -/

/-- DECODE of a grid too small for the length its stream spells raises in the length or in the payload (R138). -/
theorem exec_decode_of_lt {s : State} (hv : s.valid = true) (hc : 0 < s.capacity)
    (hlt : s.capacity < streamLength s.grid s.capacity + 9) :
    exec .decode s = .next ((s.exhausted.withPayOut []).answerSignal 0x05#8) := by
  rw [exec, execDecode, requireCarrier_of_valid hv, andThen_go, rewind_eq_atStream]
  rcases Nat.lt_or_ge 64 (8 * s.capacity) with h64 | h64
  · have hpayload := readBytes_atStream_of_le (n := streamLength s.grid s.capacity) h64 (by omega)
    have hprefix := bitReads_atStream (s := s) (n := 64) (m := 0) (by omega)
    simp only [Nat.zero_add] at hprefix
    rw [hprefix, andThen_go]
    change (((readBytes (streamLength s.grid s.capacity) (s.atStream 64)).andThen _).surfaceTruncation).finish = _
    rw [hpayload]
    rfl
  · rw [bitReads_atStream_of_le (by omega) (by omega)]
    rfl

theorem bitReads_of_fault {s : State} {n : Nat} {r : Fault} (h : bitRead s = .fault r) : bitReads (n + 1) s = .fault r := by
  rw [bitReads, h, andThen_fault]

/-- On a carrier without a slot, which no INIT binds, the first bit read presents no address. -/
theorem exec_decode_of_capacity_eq_zero {s : State} (hv : s.valid = true) (hc : s.capacity = 0) :
    exec .decode s = .fault .badGridAddress := by
  have haddress : gridAddress (rewind s) 0 0 0 = none := by
    refine gridAddress_eq_none.mpr fun h => ?_
    have hpos : 0 < (rewind s).capacity := capacity_pos h
    exact absurd hc hpos.ne'
  have hread : bitRead (rewind s) = .fault .badGridAddress := by
    rw [bitRead, if_neg (by simp)]
    simp [gridRead, haddress]
  rw [exec, execDecode, requireCarrier_of_valid hv, andThen_go, bitReads_of_fault hread]
  rfl

/-- The four ends of DECODE, in any state: no carrier, a carrier without a slot, the whole payload, a grid too small
(R136, R138). -/
theorem exec_decode_cases (s : State) :
    (s.valid = false ∧ exec .decode s = .next (s.answerSignal 0x01#8)) ∨
    (s.valid = true ∧ s.capacity = 0 ∧ exec .decode s = .fault .badGridAddress) ∨
    (s.valid = true ∧ streamLength s.grid s.capacity + 9 ≤ s.capacity ∧
      exec .decode s = .next (((s.atStream (64 + 8 * streamLength s.grid s.capacity)).withPayOut
        ((List.range (streamLength s.grid s.capacity)).map (streamByte s.grid s.capacity))).answerOk
        (BitVec.ofNat 64 (streamLength s.grid s.capacity)))) ∨
    (s.valid = true ∧ 0 < s.capacity ∧ s.capacity < streamLength s.grid s.capacity + 9 ∧
      exec .decode s = .next ((s.exhausted.withPayOut []).answerSignal 0x05#8)) := by
  cases hv : s.valid with
  | false => exact .inl ⟨rfl, finish_of_not_valid hv _⟩
  | true =>
    rcases Nat.eq_zero_or_pos s.capacity with hzero | hpos
    · exact .inr (.inl ⟨rfl, hzero, exec_decode_of_capacity_eq_zero hv hzero⟩)
    rcases Nat.lt_or_ge s.capacity (streamLength s.grid s.capacity + 9) with hlt | hle
    · exact .inr (.inr (.inr ⟨rfl, hpos, hlt, exec_decode_of_lt hv hpos hlt⟩))
    · exact .inr (.inr (.inl ⟨rfl, hle, exec_decode_of_le hv hle⟩))

/-- Settles O35: the read loops stay below the last slot-in-time. -/
theorem decodeDeliversTheStream : Obligations.DecodeDeliversTheStream := fun _ => exec_decode_of_le

/-- Settles O36: one of the read loops reaches the last slot-in-time. -/
theorem decodeReportsTruncation : Obligations.DecodeReportsTruncation := fun _ => exec_decode_of_lt

/-! ### What DECODE depends on -/

theorem streamBit_congr {m m' : Memory} {c : Nat} (hc : 0 < c) (h : ∀ a, a < c → Memory.read m a = Memory.read m' a) :
    streamBit m c = streamBit m' c := by
  funext n
  rw [streamBit, h _ (Nat.mod_lt n hc), streamBit]

theorem streamLength_congr {m m' : Memory} {c : Nat} (h : streamBit m c = streamBit m' c) :
    streamLength m c = streamLength m' c := by
  rw [streamLength, h, streamLength]

theorem streamByte_congr {m m' : Memory} {c : Nat} (h : streamBit m c = streamBit m' c) :
    streamByte m c = streamByte m' c := by
  funext j
  rw [streamByte, h, streamByte]

/-- Settles O40: which end DECODE has, and what it answers there, is told by the stream, and the stream by the cells. -/
theorem decodeSeesOnlyTheCells : Obligations.DecodeSeesOnlyTheCells := by
  intro s t u hs ht hcap hcells hu
  rcases exec_decode_cases s with ⟨hinvalid, -⟩ | ⟨-, -, hfault⟩ | ⟨-, hle, hok⟩ | ⟨-, hpos, hlt, htrunc⟩
  · exact absurd hs (Bool.eq_false_iff.mp hinvalid)
  · cases hfault.symm.trans hu
  · cases hok.symm.trans hu
    have hstream := streamBit_congr (by omega) hcells
    have hlen := streamLength_congr hstream
    have hend := exec_decode_of_le ht (by rwa [← hcap, ← hlen])
    rw [← hcap, ← hlen, ← streamByte_congr hstream] at hend
    exact ⟨_, _, _, hend, rfl, rfl, rfl, rfl, rfl⟩
  · cases htrunc.symm.trans hu
    have hlen := streamLength_congr (streamBit_congr hpos hcells)
    have hend := exec_decode_of_lt ht (hcap ▸ hpos) (by rwa [← hcap, ← hlen])
    exact ⟨_, _, _, hend, rfl, rfl, rfl, rfl, rfl⟩

/-! ### Rewinding -/

/-- DECODE starts from the rewound cursor (R130, R136). -/
theorem exec_decode_of_rewind_eq {s t : State} (hv : s.valid = true) (h : rewind s = rewind t) :
    exec .decode s = exec .decode t := by
  have ht : t.valid = true := (congrArg State.valid h).symm.trans hv
  rw [exec, exec, execDecode, execDecode, requireCarrier_of_valid hv, requireCarrier_of_valid ht, andThen_go, andThen_go, h]

/-- An accepted ENCODE starts from the rewound cursor (R130, R131); a refused one leaves the cursor as it is. -/
theorem exec_encode_of_rewind_eq {s t : State} {len : Data} (hv : s.valid = true)
    (hle : 64 + 8 * len.toNat ≤ s.capacity) (h : rewind s = rewind t) : exec (.encode len) s = exec (.encode len) t := by
  have ht : t.valid = true := (congrArg State.valid h).symm.trans hv
  have hcap : (rewind s).capacity = (rewind t).capacity := congrArg State.capacity h
  rw [rewind_capacity, rewind_capacity] at hcap
  have hnlt : ¬ s.capacity < 64 + 8 * len.toNat := Nat.not_lt.mpr hle
  rw [exec, exec, execEncode, execEncode, requireCarrier_of_valid hv, requireCarrier_of_valid ht, andThen_go, andThen_go,
    if_neg hnlt, if_neg (hcap ▸ hnlt), h, toBits_of_lt _ len.isLt]

/-- Settles O41: all the states in question have one rewound state. -/
theorem frameCommandsDiscardTheCursor : Obligations.FrameCommandsDiscardTheCursor :=
  fun _ hv => ⟨fun _ => exec_decode_of_rewind_eq hv rfl, exec_decode_of_rewind_eq hv rfl, exec_decode_of_rewind_eq hv rfl,
    fun _ hle => ⟨fun _ => exec_encode_of_rewind_eq hv hle rfl, exec_encode_of_rewind_eq hv hle rfl,
      exec_encode_of_rewind_eq hv hle rfl⟩⟩

end Sys2Proof.Machine

/-! PROOFS. The rules over all commands: write sets (10_state.md, section 10), PAYOUT (20_memory.md R57), the cells that a
writer can reach (41_mask_bit_io.md R105), `ERRS` (10_state.md R29), and the signals of R168. -/

namespace Sys2Proof.Machine

/-! ### INIT -/

/-- The three ends of INIT, in any state: an ill-formed term, a zero dimension, the carrier bound (44_system.md R150). -/
theorem exec_init_cases (h w c : Nat) (s : State) :
    exec (.init h w c) s = .next (s.answerSignal 0x06#8) ∨
    exec (.init h w c) s = .next ((unbindCarrier s).answerSignal 0x01#8) ∨
    (dimensionsFit s.params h w c = true ∧ (h ≠ 0 ∧ w ≠ 0 ∧ c ≠ 0) ∧
      exec (.init h w c) s = .next ((bindCarrier h w c s).answerOk (BitVec.ofNat 64 (capacityOf h w c)))) := by
  by_cases hfit : dimensionsFit s.params h w c = true
  · by_cases hzero : h = 0 ∨ w = 0 ∨ c = 0
    · exact .inr (.inl (exec_init_of_zero hfit hzero))
    · obtain ⟨hh, hw, hc⟩ : h ≠ 0 ∧ w ≠ 0 ∧ c ≠ 0 := by simpa using hzero
      exact .inr (.inr ⟨hfit, ⟨hh, hw, hc⟩, exec_init_of_ne_zero hfit hh hw hc⟩)
  · exact .inl (exec_of_not_wellFormed hfit)

/-! ### Write sets -/

/-- The commands that leave the cursor alone (10_state.md R39). -/
def LeavesCursor (i : Instr) : Prop :=
  (∃ k, i = .mask k) ∨ (∃ w v, i = .tobits w v) ∨ (∃ n d, i = .frombits n d) ∨ ∃ r, i = .rdreg r

/-- What a command may have written before it gives its response (10_state.md R39): every state component outside its
write set is as before. -/
structure KeepsToWriteSet (i : Instr) (s t : State) : Prop where
  params : t.params = s.params
  host : t.host = s.host
  carrier : (∀ h w c, i ≠ .init h w c) →
    t.height = s.height ∧ t.width = s.width ∧ t.channels = s.channels ∧ t.valid = s.valid
  errs : (∀ h w c, i ≠ .init h w c) → t.errs = s.errs
  cursor : LeavesCursor i → t.row = s.row ∧ t.col = s.col ∧ t.ch = s.ch ∧ t.k = s.k ∧ t.exh = s.exh
  grid : (∀ b, i ≠ .wbit b) → (∀ len, i ≠ .encode len) → t.grid = s.grid

theorem KeepsToWriteSet.refl (i : Instr) (s : State) : KeepsToWriteSet i s s :=
  ⟨rfl, rfl, fun _ => ⟨rfl, rfl, rfl, rfl⟩, fun _ => rfl, fun _ => ⟨rfl, rfl, rfl, rfl, rfl⟩, fun _ _ => rfl⟩

theorem CursorOnly.keepsToWriteSet {i : Instr} {s t : State} (h : CursorOnly s t) (hi : ¬ LeavesCursor i) :
    KeepsToWriteSet i s t :=
  ⟨h.params, h.host, fun _ => ⟨h.height, h.width, h.channels, h.valid⟩, fun _ => h.errs, fun hc => absurd hc hi,
    fun _ _ => h.grid⟩

theorem CursorAndGrid.keepsToWriteSet {i : Instr} {s t : State} (h : CursorAndGrid s t)
    (hi : (∃ b, i = .wbit b) ∨ ∃ len, i = .encode len) : KeepsToWriteSet i s t := by
  refine ⟨h.params, h.host, fun _ => ⟨h.height, h.width, h.channels, h.valid⟩, fun _ => h.errs, fun hc => ?_,
    fun hb hlen => absurd hi (not_or.mpr ⟨not_exists.mpr hb, not_exists.mpr hlen⟩)⟩
  rcases hi with ⟨b, rfl⟩ | ⟨len, rfl⟩ <;> simp [LeavesCursor] at hc

/-- INIT keeps the parameters, the host's moves and the cells. -/
theorem keepsToWriteSet_init {h w c : Nat} {s t : State} (hparams : t.params = s.params) (hhost : t.host = s.host)
    (hgrid : t.grid = s.grid) : KeepsToWriteSet (.init h w c) s t :=
  ⟨hparams, hhost, fun hi => absurd rfl (hi h w c), fun hi => absurd rfl (hi h w c),
    fun hc => by simp [LeavesCursor] at hc, fun _ _ => hgrid⟩

theorem KeepsToWriteSet.withPayOut {i : Instr} {s t : State} (h : KeepsToWriteSet i s t) (p : List Byte) :
    KeepsToWriteSet i s (t.withPayOut p) :=
  ⟨h.params, h.host, h.carrier, h.errs, h.cursor, h.grid⟩

theorem cursorOnly_atStream (s : State) (n : Nat) : CursorOnly s (s.atStream n) :=
  ⟨⟨rfl, rfl, rfl, rfl, rfl, rfl, rfl, rfl, rfl, rfl, rfl⟩, rfl⟩

theorem cursorOnly_exhausted (s : State) : CursorOnly s s.exhausted :=
  ⟨⟨rfl, rfl, rfl, rfl, rfl, rfl, rfl, rfl, rfl, rfl, rfl⟩, rfl⟩

theorem CursorAndGrid.withGrid {s t : State} (h : CursorAndGrid s t) (g : Memory) : CursorAndGrid s (t.withGrid g) :=
  ⟨h.params, h.height, h.width, h.channels, h.valid, h.errs, h.lastSig, h.payIn, h.payOut, h.response, h.host⟩

/-- A command other than RDREG ends by a response to a state that differs from the first in its write set only. -/
theorem exec_keepsToWriteSet {i : Instr} {s t : State} (hq : ∀ q, i ≠ .rdreg q) (h : exec i s = .next t) :
    ∃ u, KeepsToWriteSet i s u ∧ ((∃ d, t = u.answerOk d) ∨ ∃ sig : Signal, t = u.answerSignal sig.code) := by
  by_cases hwf : WellFormed s.params i = true
  case neg =>
    rw [exec_of_not_wellFormed hwf] at h
    cases h
    exact ⟨s, .refl i s, .inr ⟨.illegalCommand, rfl⟩⟩
  cases i with
  | init h' w c =>
    rcases exec_init_cases h' w c s with hend | hend | ⟨-, -, hend⟩
    · cases hend.symm.trans h
      exact ⟨s, .refl _ s, .inr ⟨.illegalCommand, rfl⟩⟩
    · cases hend.symm.trans h
      exact ⟨unbindCarrier s, keepsToWriteSet_init rfl rfl rfl, .inr ⟨.invalidCarrier, rfl⟩⟩
    · cases hend.symm.trans h
      exact ⟨bindCarrier h' w c s, keepsToWriteSet_init rfl rfl rfl, .inl ⟨_, rfl⟩⟩
  | adv =>
    exact (slotCommand_leaves (.refl _ s) ((advance_ends s).leaves fun _ hu =>
      hu.keepsToWriteSet (by simp [LeavesCursor]))).of_finish h
  | wbit b =>
    exact (slotCommand_leaves (.refl _ s) ((bitWrite_ends b s).leaves fun _ hu =>
      hu.keepsToWriteSet (.inl ⟨b, rfl⟩))).of_finish h
  | rbit =>
    exact (slotCommand_leaves (.refl _ s) ((bitRead_ends s).leaves fun _ hu =>
      hu.keepsToWriteSet (by simp [LeavesCursor]))).of_finish h
  | mask k =>
    cases h
    exact ⟨s, .refl _ s, .inl ⟨_, rfl⟩⟩
  | tobits width value =>
    rcases Nat.lt_or_ge value.toNat (2 ^ width.toNat) with hlt | hle
    · cases (exec_tobits_of_lt hwf hlt s).symm.trans h
      exact ⟨s, .refl _ s, .inl ⟨_, rfl⟩⟩
    · cases (exec_tobits_of_le hwf hle s).symm.trans h
      exact ⟨s, .refl _ s, .inr ⟨.valueTooLarge, rfl⟩⟩
  | frombits n digits =>
    obtain ⟨hn, hstray⟩ := Bool.and_eq_true_iff.mp hwf
    cases (exec_frombits_of_noStrayDigit hn hstray s).symm.trans h
    exact ⟨s, .refl _ s, .inl ⟨_, rfl⟩⟩
  | encode len =>
    rcases exec_encode_cases len s with ⟨-, hend⟩ | ⟨-, -, hend⟩ | ⟨-, -, hend⟩
    · cases hend.symm.trans h
      exact ⟨s, .refl _ s, .inr ⟨.invalidCarrier, rfl⟩⟩
    · cases hend.symm.trans h
      exact ⟨s, .refl _ s, .inr ⟨.carrierTooSmall, rfl⟩⟩
    · cases hend.symm.trans h
      exact ⟨_, ((cursorOnly_atStream s _).withGrid _).keepsToWriteSet (.inr ⟨len, rfl⟩), .inl ⟨_, rfl⟩⟩
  | decode =>
    rcases exec_decode_cases s with ⟨-, hend⟩ | ⟨-, -, hend⟩ | ⟨-, -, hend⟩ | ⟨-, -, -, hend⟩
    · cases hend.symm.trans h
      exact ⟨s, .refl _ s, .inr ⟨.invalidCarrier, rfl⟩⟩
    · cases hend.symm.trans h
    · cases hend.symm.trans h
      exact ⟨_, ((cursorOnly_atStream s _).keepsToWriteSet (by simp [LeavesCursor])).withPayOut _, .inl ⟨_, rfl⟩⟩
    · cases hend.symm.trans h
      exact ⟨_, ((cursorOnly_exhausted s).keepsToWriteSet (by simp [LeavesCursor])).withPayOut _,
        .inr ⟨.truncatedOrCorruptData, rfl⟩⟩
  | rdreg q => exact absurd rfl (hq q)

/-- Settles O46: a response adds `LASTSIG`, `ERRS`, the response and the empty PAYIN to the writes of the command; RDREG
adds the last two only. -/
theorem commandsKeepToTheirWriteSets : Obligations.CommandsKeepToTheirWriteSets := by
  intro i s t h
  by_cases hq : ∃ q, i = .rdreg q
  · obtain ⟨q, rfl⟩ := hq
    cases h
    exact ⟨rfl, rfl, rfl, fun _ => ⟨rfl, rfl, rfl, rfl⟩, fun _ => ⟨rfl, rfl, rfl, rfl, rfl⟩, fun _ _ => rfl, fun _ => rfl⟩
  · have hpay : i ≠ .decode → t.payOut = s.payOut := fun hd => payOut_of_exec hd h
    obtain ⟨u, hu, ⟨d, rfl⟩ | ⟨sig, rfl⟩⟩ := exec_keepsToWriteSet (not_exists.mp hq) h
    · exact ⟨hu.params, rfl, hu.host, hu.carrier, hu.cursor, hu.grid, hpay⟩
    · exact ⟨hu.params, rfl, hu.host, hu.carrier, hu.cursor, hu.grid, hpay⟩

/-! ### PAYOUT -/

/-- Sixty-four digits spell a number of at most 64 bits, so `rdata` holds it. -/
theorem streamLength_lt (m : Memory) (c : Nat) : streamLength m c < 2 ^ 64 := by
  have hlt := digitsValue_lt ((List.range 64).map (streamBit m c))
  rwa [List.length_map, List.length_range] at hlt

/-- Settles O47: DECODE's ends one by one; nothing else reaches PAYOUT. -/
theorem payOutHoldsTheLatestPayload : Obligations.PayOutHoldsTheLatestPayload := by
  refine ⟨fun s t h => ?_, fun _ _ _ => payOut_of_exec, fun w e s t hw ht => ?_, ?_⟩
  · rcases exec_decode_cases s with ⟨-, hend⟩ | ⟨-, -, hend⟩ | ⟨-, -, hend⟩ | ⟨-, -, -, hend⟩
    · cases hend.symm.trans h
      exact ⟨_, rfl, nofun, fun _ => rfl, nofun, .inr (.inl rfl)⟩
    · cases hend.symm.trans h
    · cases hend.symm.trans h
      refine ⟨_, rfl, fun _ => ?_, nofun, nofun, .inl rfl⟩
      have hlen := toNat_ofNat_of_lt_two_pow le_rfl (streamLength_lt s.grid s.capacity)
      exact (List.length_map _).trans (List.length_range.trans hlen.symm)
    · cases hend.symm.trans h
      exact ⟨_, rfl, nofun, nofun, fun _ => rfl, .inr (.inr rfl)⟩
  · rw [acceptWord_of_illegal hw] at ht
    cases ht
    rfl
  · rintro s t rest (hreset | ⟨slot, v, hstore⟩) h
    · rw [step_of_reset hreset] at h
      cases h
      rfl
    · rw [step_of_store hstore] at h
      cases h
      rfl

/-! ### The cells that WBIT and ENCODE reach -/

/-- From `s` to `t` no cell changes but the one at the cursor's address in `s`, and in it no bit but `K` (R105). -/
def TouchesCursorBit (s t : State) : Prop :=
  ∀ a, (gridAddress s s.row s.col s.ch ≠ some a → Memory.read t.grid a = Memory.read s.grid a) ∧
    ∀ j, j ≠ s.k.toNat → (Memory.read t.grid a).getLsbD j = (Memory.read s.grid a).getLsbD j

theorem touchesCursorBit_of_grid_eq {s t : State} (h : t.grid = s.grid) : TouchesCursorBit s t :=
  fun a => ⟨fun _ => congrArg (Memory.read · a) h, fun j _ => congrArg (fun m => (Memory.read m a).getLsbD j) h⟩

/-- One bit put into the cell at the cursor's address. -/
theorem touchesCursorBit_of_write {s t : State} {x : Nat} {b : Bool} (hx : gridAddress s s.row s.col s.ch = some x)
    (h : t.grid = Memory.write s.grid x (putBit (Memory.read s.grid x) s.k b)) : TouchesCursorBit s t := by
  intro a
  rw [h, Memory.read_write]
  refine ⟨fun ha => if_neg fun hax : a = x => ha (hax ▸ hx), fun j hj => ?_⟩
  split
  · subst_vars
    rw [putBit_getLsbD, if_neg hj]
  · rfl

theorem bitWrite_leaves_touchesCursorBit (b : Bool) (s : State) : (bitWrite b s).Leaves (TouchesCursorBit s) := by
  rcases bitWrite_cases b s with h | h | ⟨x, hx, -, h⟩ <;> rw [h]
  · exact touchesCursorBit_of_grid_eq rfl
  · trivial
  · exact (advance_ends _).leaves fun u hu => touchesCursorBit_of_write hx hu.grid

/-- Settles O48: the bit writer writes at most one cell, and an accepted ENCODE its frame in plane 0. -/
theorem gridWritersTouchOnlyTheirBits : Obligations.GridWritersTouchOnlyTheirBits := by
  refine ⟨fun b s t h => ?_, fun len s t h => ?_⟩
  · obtain ⟨u, hu, ⟨d, rfl⟩ | ⟨sig, rfl⟩⟩ := (slotCommand_leaves (touchesCursorBit_of_grid_eq rfl)
      (bitWrite_leaves_touchesCursorBit b s)).of_finish h
    · exact hu
    · exact hu
  · rcases exec_encode_cases len s with ⟨-, hend⟩ | ⟨-, -, hend⟩ | ⟨-, hle, hend⟩
    · cases hend.symm.trans h
      exact fun a => ⟨fun _ => rfl, fun _ _ => rfl⟩
    · cases hend.symm.trans h
      exact fun a => ⟨fun _ => rfl, fun _ _ => rfl⟩
    · cases hend.symm.trans h
      have hframe := frame_length (payload s.payIn len.toNat)
      rw [payload_length] at hframe
      refine fun a => ⟨fun ha => read_wroteBits_of_length_le (by omega) (by omega) (by omega), fun j hj => ?_⟩
      exact (read_wroteBits_getLsbD (by omega) (by omega) a j).trans (if_neg hj)

/-! ### ERRS -/

/-- `OK` is no signal's code (60_exceptions.md R161). -/
theorem code_ne_ok (sig : Signal) : sig.code ≠ 0x00#8 := by cases sig <;> decide

/-- A successful INIT clears `ERRS` (44_system.md R150). -/
theorem errs_of_exec_init {h w c : Nat} {s t : State} {r : Response} (hend : exec (.init h w c) s = .next t)
    (hr : t.response = some r) (hsig : r.sig = 0x00#8) : t.errs = false := by
  rcases exec_init_cases h w c s with hcase | hcase | ⟨-, -, hcase⟩
  · cases hcase.symm.trans hend
    cases hr
    exact absurd hsig (code_ne_ok .illegalCommand)
  · cases hcase.symm.trans hend
    cases hr
    exact absurd hsig (code_ne_ok .invalidCarrier)
  · cases hcase.symm.trans hend
    rfl

/-- `ERRS` after a command: set by a signal, left alone by a success of any command but INIT (10_state.md R29). -/
theorem errs_of_exec {i : Instr} {s t : State} (h : exec i s = .next t) :
    ∃ r, t.response = some r ∧ (r.sig ≠ 0x00#8 → t.errs = true) ∧
      (r.sig = 0x00#8 → (∀ h w c, i ≠ .init h w c) → t.errs = s.errs) := by
  by_cases hq : ∃ q, i = .rdreg q
  · obtain ⟨q, rfl⟩ := hq
    cases h
    exact ⟨_, rfl, fun hne => absurd rfl hne, fun _ _ => rfl⟩
  · obtain ⟨u, hu, ⟨d, rfl⟩ | ⟨sig, rfl⟩⟩ := exec_keepsToWriteSet (not_exists.mp hq) h
    · exact ⟨_, rfl, fun hne => absurd rfl hne, fun _ hi => hu.errs hi⟩
    · exact ⟨_, rfl, fun _ => rfl, fun hok => absurd hok (code_ne_ok sig)⟩

/-- A command that clears `ERRS` is an INIT that ended `OK`. -/
theorem init_of_errs_cleared {i : Instr} {s t : State} (h : exec i s = .next t) (hs : s.errs = true)
    (ht : t.errs = false) : (∃ a b c, i = .init a b c) ∧ t.lastSig = 0x00#8 := by
  obtain ⟨r, hr, hsignal, hok⟩ := errs_of_exec h
  have hsig : r.sig = 0x00#8 := by
    by_contra hne
    exact absurd (ht.symm.trans (hsignal hne)) (by decide)
  have hinit : ∃ a b c, i = .init a b c := by
    by_contra hne
    have hkept : t.errs = s.errs := hok hsig fun a b c e => hne ⟨a, b, c, e⟩
    exact absurd (ht.symm.trans (hkept.trans hs)) (by decide)
  refine ⟨hinit, ?_⟩
  obtain ⟨a, b, c, rfl⟩ := hinit
  obtain ⟨r', hr', hlast⟩ := lastSig_eq_response_sig_of_exec (by simp) h
  cases hr.symm.trans hr'
  exact hlast.trans hsig

/-- Settles O49: `ERRS` after each command and after each of the host's other moves. -/
theorem errsIsSticky : Obligations.ErrsIsSticky := by
  refine ⟨fun w e s t hw ht => ?_, fun _ => rfl, fun i s t h => ?_, fun s t h hs ht => ?_⟩
  · rw [acceptWord_of_illegal hw] at ht
    cases ht
    rfl
  · obtain ⟨r, hr, hsignal, hok⟩ := errs_of_exec h
    refine ⟨r, hr, hsignal, hok, ?_⟩
    rintro hsig ⟨a, b, c, rfl⟩
    exact errs_of_exec_init h hr hsig
  · rcases step_cases h with rfl | ⟨rest, hhost, -⟩ | ⟨slot, v, rest, rfl⟩ | ⟨p, rest, rfl⟩ | ⟨w, p, rest, i, hhost, hw, hexec⟩
    · exact absurd (hs.symm.trans ht) (by decide)
    · exact ⟨rest, .inl hhost⟩
    · exact absurd (hs.symm.trans ht) (by decide)
    · cases ht
    · obtain ⟨⟨a, b, c, rfl⟩, hlast⟩ := init_of_errs_cleared hexec hs ht
      exact ⟨rest, .inr ⟨w, p, a, b, c, hhost, hw, hlast⟩⟩

/-! ### The table of signals -/

/-- Settles O52: the codes of the signals in each command's row of R168. -/
theorem signalsOfEachCommand : Obligations.SignalsOfEachCommand := by
  intro i s t r hwf h hr
  have hsig : r.sig = 0x00#8 ∨ ∃ sig ∈ signalsOf i, r.sig = sig.code :=
    (response_sig_of_exec h hr).imp_right fun hsignal => hsignal.resolve_left fun hno => hno.1 hwf
  cases i <;> simpa [signalsOf, Signal.code] using hsig

end Sys2Proof.Machine

/-! PROOFS. The invariant: it holds at reset, and from a state that has it every command and every step ends with a next
state that has it (10_state.md R21 to R30, 20_memory.md R54). -/

namespace Sys2Proof.Machine

/-! ### The part of the invariant that a command's pseudocode keeps -/

/-- The invariant without its two clauses on `LASTSIG` and `ERRS`, which a command's response restores: a successful INIT
clears `ERRS` before `LASTSIG` is written. -/
structure Sound (s : State) : Prop where
  fits : RegistersFit s
  bound : s.valid = true → CursorInRange s
  unbound : s.valid = false →
    s.height = 0 ∧ s.width = 0 ∧ s.channels = 0 ∧ s.row = 0 ∧ s.col = 0 ∧ s.ch = 0 ∧ s.k = 0 ∧ s.exh = false
  exhausted : s.exh = true → s.row = 0 ∧ s.col = 0 ∧ s.ch = 0 ∧ s.k = 7
  grid : Memory.wf s.grid = true

theorem Inv.sound {s : State} (h : Inv s) : Sound s := ⟨h.fits, h.bound, h.unbound, h.exhausted, h.grid⟩

theorem Sound.inv {s : State} (h : Sound s) (hcode : s.lastSig.toNat ≤ 6) (hsticky : s.lastSig ≠ 0x00#8 → s.errs = true) :
    Inv s :=
  ⟨h.fits, h.bound, h.unbound, h.exhausted, hcode, hsticky, h.grid⟩

theorem inv_answerOk {s : State} (h : Sound s) (d : Data) : Inv (s.answerOk d) :=
  Sound.inv ⟨h.fits, h.bound, h.unbound, h.exhausted, h.grid⟩ (Nat.zero_le 6) fun hne => absurd rfl hne

/-- Codes above 6 are never produced (60_exceptions.md R161). -/
theorem code_toNat_le (sig : Signal) : sig.code.toNat ≤ 6 := by cases sig <;> decide

theorem inv_answerSignal {s : State} (h : Sound s) (sig : Signal) : Inv (s.answerSignal sig.code) :=
  Sound.inv ⟨h.fits, h.bound, h.unbound, h.exhausted, h.grid⟩ (code_toNat_le sig) fun _ => rfl

theorem sound_withGrid {s : State} (h : Sound s) {g : Memory} (hg : Memory.wf g = true) : Sound (s.withGrid g) :=
  ⟨h.fits, h.bound, h.unbound, h.exhausted, hg⟩

theorem sound_withPayOut {s : State} (h : Sound s) (p : List Byte) : Sound (s.withPayOut p) :=
  ⟨h.fits, h.bound, h.unbound, h.exhausted, h.grid⟩

theorem dimensionsFit_of_registersFit {s : State} (h : RegistersFit s) :
    dimensionsFit s.params s.height s.width s.channels = true :=
  dimensionsFit_iff.mpr ⟨h.1, h.2.1, h.2.2.1⟩

/-- A cursor in range fits its registers, as the dimensions do. -/
theorem registersFit_of_cursorInRange {s : State} (f : dimensionsFit s.params s.height s.width s.channels = true)
    (h : CursorInRange s) : RegistersFit s := by
  obtain ⟨hheight, hwidth, hchannels⟩ := dimensionsFit_iff.mp f
  obtain ⟨hrow, hcol, hch⟩ := h
  exact ⟨hheight, hwidth, hchannels, hrow.trans hheight, hcol.trans hwidth, hch.trans hchannels⟩

/-- With a carrier bound and its cursor in range, what is left to see is the exhausted cursor and the grid. -/
theorem sound_of_cursorInRange {s : State} (f : dimensionsFit s.params s.height s.width s.channels = true)
    (hv : s.valid = true) (h : CursorInRange s) (hx : s.exh = true → s.row = 0 ∧ s.col = 0 ∧ s.ch = 0 ∧ s.k = 7)
    (hg : Memory.wf s.grid = true) : Sound s :=
  ⟨registersFit_of_cursorInRange f h, fun _ => h, fun hno => absurd (hv.symm.trans hno) (by decide), hx, hg⟩

theorem sound_atStream {s : State} (h : Sound s) (hv : s.valid = true) (n : Nat) : Sound (s.atStream n) :=
  sound_of_cursorInRange (dimensionsFit_of_registersFit (s := s) h.fits) hv (cursorInRange_atStream (capacity_pos (h.bound hv)))
    nofun h.grid

/-- The exhausted cursor is in range too: a bound carrier has the slot `(0,0,0)` (R24, R28). -/
theorem sound_exhausted {s : State} (h : Sound s) (hv : s.valid = true) : Sound s.exhausted := by
  obtain ⟨hrow, hcol, hch⟩ := h.bound hv
  exact sound_of_cursorInRange (dimensionsFit_of_registersFit (s := s) h.fits) hv
    ⟨Nat.zero_lt_of_lt hrow, Nat.zero_lt_of_lt hcol, Nat.zero_lt_of_lt hch⟩ (fun _ => ⟨rfl, rfl, rfl, rfl⟩) h.grid

theorem sound_bindCarrier {s : State} {h w c : Nat} (hg : Memory.wf s.grid = true)
    (f : dimensionsFit s.params h w c = true) (hne : h ≠ 0 ∧ w ≠ 0 ∧ c ≠ 0) : Sound (bindCarrier h w c s) :=
  sound_of_cursorInRange f rfl
    ⟨Nat.pos_of_ne_zero hne.1, Nat.pos_of_ne_zero hne.2.1, Nat.pos_of_ne_zero hne.2.2⟩ nofun hg

/-- Zeros fit any registers. -/
theorem sound_unbindCarrier {s : State} (hg : Memory.wf s.grid = true) : Sound (unbindCarrier s) :=
  ⟨⟨Nat.two_pow_pos _, Nat.two_pow_pos _, Nat.two_pow_pos _, Nat.two_pow_pos _, Nat.two_pow_pos _, Nat.two_pow_pos _⟩, nofun,
    fun _ => ⟨rfl, rfl, rfl, rfl, rfl, rfl, rfl, rfl⟩, nofun, hg⟩

/-! ### The slot operations -/

/-- The piece of pseudocode presents no invalid address and ends in a sound state. -/
def Flow.KeepsSound {α : Type} (x : Flow α) : Prop :=
  match x with
  | .go _ t => Sound t
  | .raised _ t => Sound t
  | .fault _ => False

/-- A command whose pseudocode ends in a sound state ends with a next state that has the whole invariant. -/
theorem Flow.KeepsSound.finish {x : Flow Data} (h : x.KeepsSound) : ∃ t, x.finish = .next t ∧ Inv t := by
  cases x with
  | go d t => exact ⟨_, rfl, inv_answerOk h d⟩
  | raised sig t => exact ⟨_, rfl, inv_answerSignal h sig⟩
  | fault _ => exact h.elim

/-- A result made of what the piece answers changes no state. -/
theorem Flow.KeepsSound.map {α β : Type} {x : Flow α} (h : x.KeepsSound) (f : α → β) :
    (x.andThen fun a t => .go (f a) t).KeepsSound := by
  cases x with
  | go _ _ => exact h
  | raised _ _ => exact h
  | fault _ => exact h

theorem advance_keepsSound {s : State} (h : Sound s) (hv : s.valid = true) : (advance s).KeepsSound := by
  cases hx : s.exh with
  | true =>
    rw [advance_of_exh hx]
    exact h
  | false =>
    have hlt := streamPos_lt (h.bound hv)
    rcases Nat.lt_or_ge (s.streamPos + 1) (8 * s.capacity) with hn | hn
    · rw [advance_of_streamPos_lt (h.bound hv) hx hn]
      exact sound_atStream h hv _
    · rw [advance_of_streamPos_eq (h.bound hv) hx (by omega)]
      exact sound_exhausted h hv

theorem bitWrite_keepsSound {s : State} (h : Sound s) (hv : s.valid = true) (b : Bool) : (bitWrite b s).KeepsSound := by
  cases hx : s.exh with
  | true =>
    rw [bitWrite_of_exh hx]
    exact h
  | false =>
    rw [bitWrite_of_inRange (h.bound hv) hx]
    exact advance_keepsSound (sound_withGrid h (Memory.wf_write h.grid _ _)) hv

theorem bitRead_keepsSound {s : State} (h : Sound s) (hv : s.valid = true) : (bitRead s).KeepsSound := by
  cases hx : s.exh with
  | true =>
    rw [bitRead_of_exh hx]
    exact h
  | false =>
    rw [bitRead_of_inRange (h.bound hv) hx]
    exact (advance_keepsSound h hv).map _

/-- ADV, WBIT and RBIT do their slot operation with a carrier bound only. -/
theorem slotCommand_keepsSound {α : Type} {f : State → Flow α} {result : α → Data} {s : State} (h : Sound s)
    (hf : s.valid = true → (f s).KeepsSound) :
    ((requireCarrier s).andThen fun _ t => (f t).andThen fun a u => .go (result a) u).KeepsSound := by
  cases hv : s.valid with
  | false =>
    rw [requireCarrier_of_not_valid hv]
    exact h
  | true =>
    rw [requireCarrier_of_valid hv, andThen_go]
    exact (hf hv).map result

/-! ### Every command and every step -/

theorem wf_wroteBits {bs : List Bool} {n : Nat} {s : State} (h : Memory.wf s.grid = true) :
    Memory.wf (wroteBits bs n s) = true := by
  induction bs generalizing n s with
  | nil => exact h
  | cons b bs ih => exact ih (s := s.withGrid (wroteBit (s.atStream n) b)) (Memory.wf_write h _ _)

/-- Every command, from a state with the invariant, ends with a next state, and that has the invariant. -/
theorem exec_keepsInv {s : State} (h : Inv s) (i : Instr) : ∃ t, exec i s = .next t ∧ Inv t := by
  by_cases hwf : WellFormed s.params i = true
  case neg => exact ⟨_, exec_of_not_wellFormed hwf, inv_answerSignal h.sound .illegalCommand⟩
  cases i with
  | init a b c =>
    rcases exec_init_cases a b c s with hend | hend | ⟨hfit, hne, hend⟩
    · exact ⟨_, hend, inv_answerSignal h.sound .illegalCommand⟩
    · exact ⟨_, hend, inv_answerSignal (sound_unbindCarrier h.grid) .invalidCarrier⟩
    · exact ⟨_, hend, inv_answerOk (sound_bindCarrier h.grid hfit hne) _⟩
  | adv => exact (slotCommand_keepsSound h.sound (advance_keepsSound h.sound)).finish
  | wbit b => exact (slotCommand_keepsSound h.sound (bitWrite_keepsSound h.sound · b)).finish
  | rbit => exact (slotCommand_keepsSound h.sound (bitRead_keepsSound h.sound)).finish
  | mask k => exact ⟨_, exec_mask k s, inv_answerOk h.sound _⟩
  | tobits width value =>
    rcases Nat.lt_or_ge value.toNat (2 ^ width.toNat) with hlt | hle
    · exact ⟨_, exec_tobits_of_lt hwf hlt s, inv_answerOk h.sound _⟩
    · exact ⟨_, exec_tobits_of_le hwf hle s, inv_answerSignal h.sound .valueTooLarge⟩
  | frombits n digits =>
    obtain ⟨hn, hstray⟩ := Bool.and_eq_true_iff.mp hwf
    exact ⟨_, exec_frombits_of_noStrayDigit hn hstray s, inv_answerOk h.sound _⟩
  | encode len =>
    rcases exec_encode_cases len s with ⟨-, hend⟩ | ⟨-, -, hend⟩ | ⟨hv, -, hend⟩
    · exact ⟨_, hend, inv_answerSignal h.sound .invalidCarrier⟩
    · exact ⟨_, hend, inv_answerSignal h.sound .carrierTooSmall⟩
    · exact ⟨_, hend, inv_answerOk (sound_withGrid (sound_atStream h.sound hv _) (wf_wroteBits h.grid)) _⟩
  | decode =>
    rcases exec_decode_cases s with ⟨-, hend⟩ | ⟨hv, hzero, -⟩ | ⟨hv, -, hend⟩ | ⟨hv, -, -, hend⟩
    · exact ⟨_, hend, inv_answerSignal h.sound .invalidCarrier⟩
    · exact absurd hzero (capacity_pos (h.bound hv)).ne'
    · exact ⟨_, hend, inv_answerOk (sound_withPayOut (sound_atStream h.sound hv _) _) _⟩
    · exact ⟨_, hend, inv_answerSignal (sound_withPayOut (sound_exhausted h.sound hv) _) .truncatedOrCorruptData⟩
  | rdreg q => exact ⟨_, exec_rdreg q s, h.fits, h.bound, h.unbound, h.exhausted, h.code, h.sticky, h.grid⟩

/-- The invariant does not speak of what the host holds and supplies. -/
theorem inv_presented {s : State} (h : Inv s) (p : List Byte) (rest : List HostMove) : Inv (s.presented p rest) :=
  ⟨h.fits, h.bound, h.unbound, h.exhausted, h.code, h.sticky, h.grid⟩

/-- Reset leaves the registers as an unbound carrier has them, and `OK`. -/
theorem inv_resetRegisters {s : State} (hg : Memory.wf s.grid = true) : Inv (resetRegisters s) :=
  have h := sound_unbindCarrier hg
  ⟨h.fits, h.bound, h.unbound, h.exhausted, Nat.zero_le 6, fun hne => absurd rfl hne, h.grid⟩

/-- Every step, from a state with the invariant, ends with a next state, and that has the invariant. -/
theorem step_keepsInv {s : State} (h : Inv s) : ∃ t, step s = .next t ∧ Inv t := by
  cases hhost : s.host with
  | nil => exact ⟨s, step_of_idle hhost, h⟩
  | cons move rest =>
    cases move with
    | reset => exact ⟨_, step_of_reset hhost, inv_resetRegisters h.grid⟩
    | store slot v =>
      exact ⟨_, step_of_store hhost, h.fits, h.bound, h.unbound, h.exhausted, h.code, h.sticky,
        Memory.wf_write h.grid slot v⟩
    | command w p =>
      have hpresented := inv_presented h p rest
      cases hw : decodeCommand s.params w with
      | illegal e => exact ⟨_, step_of_illegal hhost hw, inv_answerSignal hpresented.sound .illegalCommand⟩
      | command i =>
        rw [step_of_command hhost hw]
        exact exec_keepsInv hpresented i

/-- Settles O3: a step has one end. -/
theorem stepKeepsTheInvariant : Obligations.StepKeepsTheInvariant := by
  intro s t h ht
  obtain ⟨u, hu, hinv⟩ := step_keepsInv h
  cases hu.symm.trans ht
  exact hinv

/-- Settles O4: under the invariant neither a command nor a step stops at an address. -/
theorem noCommandPresentsAnInvalidAddress : Obligations.NoCommandPresentsAnInvalidAddress :=
  fun _ h => ⟨fun i => (exec_keepsInv h i).imp fun _ ht => ht.1, (step_keepsInv h).imp fun _ ht => ht.1⟩

/-- Settles O2: the state after reset is its own reset, with no cell listed. -/
theorem resetMeetsTheInvariant : Obligations.ResetMeetsTheInvariant :=
  have hinv (p : Params) : Inv (State.resetWith p) := inv_resetRegisters (s := State.resetWith p) rfl
  ⟨hinv, hinv .defaults⟩

end Sys2Proof.Machine

/-! PROOFS. The pseudo-commands as runs of commands (30_encoding.md R84): bit writes in turn against ENCODE, bit reads in
turn, and the rewind by INIT (60_exceptions.md R175). -/

namespace Sys2Proof.Machine

/-! ### Runs of commands that end `OK` -/

theorem runCommands_cons_of_answerOk {i : Instr} {is : List Instr} {s t u : State} {d : Data} {rs : List Response}
    (h : exec i s = .next (t.answerOk d)) (hrest : runCommands is (t.answerOk d) = .next (rs, u)) :
    runCommands (i :: is) s = .next ({ sig := 0x00#8, flags := flagsByte t, rdata := d } :: rs, u) := by
  rw [runCommands, h]
  simp [hrest, okCode]

/-- A response that ends a command at a stream position is no part of what is written from there on. -/
theorem wroteBits_answerOk_atStream (bs : List Bool) (n m : Nat) (s : State) (d : Data) :
    wroteBits bs n ((s.atStream m).answerOk d) = wroteBits bs n s := by
  induction bs generalizing n s with
  | nil => rfl
  | cons b bs ih => exact ih (n + 1) (s.withGrid (wroteBit (s.atStream n) b))

/-- A run of WBITs from stream position `n` on writes what the write loop writes (R103, R131). -/
theorem runCommands_wbits {bs : List Bool} {n : Nat} {s : State} (hv : s.valid = true)
    (h : n + bs.length < 8 * s.capacity) :
    ∃ rs u, runCommands (bs.map Instr.wbit) (s.atStream n) = .next (rs, u) ∧ (∀ r ∈ rs, r.sig = 0x00#8) ∧
      rs.length = bs.length ∧ u.grid = wroteBits bs n s := by
  induction bs generalizing n s with
  | nil => exact ⟨[], s.atStream n, rfl, nofun, rfl, rfl⟩
  | cons b bs ih =>
    rw [List.length_cons] at h
    have hfirst := exec_wbit_of_go (s := s.atStream n) hv (bitWrite_atStream (by omega) b)
    have hlt : n + 1 + bs.length < 8 * s.capacity := by omega
    obtain ⟨rs, u, hrest, hok, hlen, hgrid⟩ := ih (n := n + 1)
      (s := ((s.withGrid (wroteBit (s.atStream n) b)).atStream (n + 1)).answerOk 0#64) hv hlt
    refine ⟨_, u, runCommands_cons_of_answerOk hfirst hrest, List.forall_mem_cons.mpr ⟨rfl, hok⟩,
      congrArg (· + 1) hlen, ?_⟩
    rw [hgrid, wroteBits_answerOk_atStream, wroteBits]

/-- The commands of WLEN and of WBYTE for each byte are the WBITs of the frame (R84, R142). -/
theorem expand_eq_map_frame {len : Data} {p : List Byte} (hlen : p.length = len.toNat) (s : State) :
    ((Pseudo.wlen len).expand s ++ p.flatMap fun v => (Pseudo.wbyte v).expand s) = (frame p).map Instr.wbit := by
  simp only [Pseudo.expand, frame, hlen, List.map_append, List.map_flatMap]

/-- Settles O53: both write the frame of the payload from position 0 on. -/
theorem primitiveWritesEqualEncode : Obligations.PrimitiveWritesEqualEncode := by
  intro len s t hv hstart hlen hle ht
  have hframe := frame_length s.payIn
  rw [hlen] at hframe
  rw [exec_encode_of_le hv hle, payload_of_length_eq hlen] at ht
  cases ht
  obtain ⟨rs, u, hrun, hok, hrs, hgrid⟩ := runCommands_wbits (bs := frame s.payIn) (n := 0) hv (by omega)
  rw [← rewind_eq_atStream, hstart, ← expand_eq_map_frame hlen s] at hrun
  exact ⟨rs, u, hrun, hok, hrs.trans hframe, hgrid⟩

/-! ### Reading -/

/-- The bit that RBIT answers is bit 0 of `rdata` (41_mask_bit_io.md R107). -/
theorem rbit_rdata_getLsbD_zero (b : Bool) : (0#63 ++ BitVec.ofBool b : Data).getLsbD 0 = b := by
  revert b
  decide

/-- A run of RBITs from stream position `m` on answers the stream bits and leaves the cells (R107). -/
theorem runCommands_rbits {n m : Nat} {s : State} (hv : s.valid = true) (h : m + n < 8 * s.capacity) :
    ∃ rs u, runCommands (List.replicate n .rbit) (s.atStream m) = .next (rs, u) ∧ rs.length = n ∧ u.grid = s.grid ∧
      u.streamPos = m + n ∧
      rs.map (fun r => r.rdata.getLsbD 0) = (List.range n).map fun i => streamBit s.grid s.capacity (m + i) := by
  induction n generalizing m s with
  | zero => exact ⟨[], s.atStream m, rfl, rfl, rfl, streamPos_atStream h, rfl⟩
  | succ n ih =>
    have hfirst := exec_rbit_of_go (s := s.atStream m) hv (bitRead_atStream (by omega))
    have hlt : m + 1 + n < 8 * s.capacity := by omega
    obtain ⟨rs, u, hrest, hlen, hgrid, hpos, hbits⟩ := ih (m := m + 1)
      (s := (s.atStream (m + 1)).answerOk (0#63 ++ BitVec.ofBool (streamBit s.grid s.capacity m))) hv hlt
    refine ⟨_, u, runCommands_cons_of_answerOk hfirst hrest, congrArg (· + 1) hlen, hgrid, by omega, ?_⟩
    rw [List.map_cons, hbits, List.range_succ_eq_map, List.map_cons, List.map_map, rbit_rdata_getLsbD_zero]
    refine congrArg₂ List.cons rfl (List.map_congr_left fun i _ => ?_)
    exact congrArg (streamBit s.grid s.capacity) (by omega)

/-! ### REWIND -/

/-- INIT of the dimensions that are bound rewinds and clears `ERRS` (44_system.md R150). -/
theorem bindCarrier_self {s : State} (hv : s.valid = true) :
    bindCarrier s.height s.width s.channels s = { rewind s with errs := false } := by
  simp [bindCarrier, rewind, hv]

theorem exec_init_self {s : State} (hv : s.valid = true) (hc : 0 < s.capacity) (hfit : RegistersFit s) :
    exec (.init s.height s.width s.channels) s =
      .next (State.answerOk { rewind s with errs := false } (BitVec.ofNat 64 s.capacity)) := by
  obtain ⟨hh, hw, hd⟩ := cursorInRange_atStream (s := s) (n := 0) hc
  rw [exec_init_of_ne_zero (dimensionsFit_of_registersFit hfit) (Nat.ne_zero_of_lt hh) (Nat.ne_zero_of_lt hw)
    (Nat.ne_zero_of_lt hd), bindCarrier_self hv]
  rfl

/-- Settles O54: the reading pseudo-commands are runs of RBITs from the cursor's position on; REWIND is INIT of the
dimensions that are bound. -/
theorem readingPseudoCommands : Obligations.ReadingPseudoCommands := by
  refine ⟨fun s p n hv hx h hp hn => ?_, fun s hv hc hfit => ?_⟩
  · have hexpand : p.expand s = List.replicate n .rbit := by
      rcases hp with ⟨rfl, rfl⟩ | ⟨rfl, rfl⟩
      · rfl
      · rfl
    obtain ⟨rs, t, hrun, hlen, hgrid, hpos, hbits⟩ := runCommands_rbits hv hn
    rw [atStream_streamPos h hx, ← hexpand] at hrun
    exact ⟨rs, t, hrun, hlen, hgrid, hpos, congrArg digitsValue hbits⟩
  · have hcap : (BitVec.ofNat 64 s.capacity).toNat = s.capacity :=
      toNat_ofNat_of_lt_two_pow le_rfl (capacityOf_lt (dimensionsFit_of_registersFit hfit))
    exact ⟨_, _, runCommands_cons_of_answerOk (exec_init_self hv hc hfit) rfl, rfl, rfl, hcap⟩

end Sys2Proof.Machine
